-- ==== Sys2Proof/Word.lean ====
section
/-! DEFINITION. The machine word: a 16-bit quantity, "the machine's native data/address unit" (00_scope.md R4 and
glossary). Addition on it is addition mod 65536 and `~~~` is the complement within 16 bits (R5). -/

namespace Sys2Proof

/-- A 16-bit word; bit 15 is the most significant (R4). -/
abbrev Word := BitVec 16

end Sys2Proof
end

