-- ==== Sys2Proof/Syntax.lean ====
section
/-! DEFINITION. The instruction set as syntax: the sixteen opcodes and the instructions, one constructor per row of
spec/opcode_table.json (30_encoding.md R54). There is no alias and no pseudo-instruction (R59). -/

namespace Sys2Proof

/-- The sixteen opcodes, in the order in which the source lists them (R54). Their numbers are `opcodeOf`'s. -/
inductive Opcode where
  | lda | sto | add | sub | jmp | jge | jne | stp | cll | ret | psh | pop | ldr | str | movPc | movSp
deriving DecidableEq, Repr

/-- An instruction. `addr` is the address argument as its producer gives it, a 16-bit word of which the machine uses
the low 12 bits (R52, R53); `wellFormed` asks that the rest be zero (log 16). The six no-address instructions carry
nothing, since the machine ignores their low 12 bits (R56, log 15). -/
inductive Instr where
  /-- ACC from memory, direct (R90). -/
  | lda (addr : Word)
  /-- ACC to memory, direct (R91). -/
  | sto (addr : Word)
  /-- ACC plus memory word (R95). -/
  | add (addr : Word)
  /-- ACC minus memory word (R96). -/
  | sub (addr : Word)
  /-- Jump (R100). -/
  | jmp (addr : Word)
  /-- Jump if N clear (R101). -/
  | jge (addr : Word)
  /-- Jump if Z clear (R102). -/
  | jne (addr : Word)
  /-- Halt (R120). -/
  | stp
  /-- Call: push PC, jump (R107). -/
  | cll (addr : Word)
  /-- Return: pop PC (R108). -/
  | ret
  /-- Push ACC (R105). -/
  | psh
  /-- Pop into ACC (R106). -/
  | pop
  /-- ACC from memory, indirect (R110). -/
  | ldr (addr : Word)
  /-- ACC to memory, indirect (R111). -/
  | str (addr : Word)
  /-- PC from ACC (R115). -/
  | movPc
  /-- SP from ACC (R116). -/
  | movSp
deriving DecidableEq, Repr

end Sys2Proof
end

