-- ==== Sys2Proof/WellFormed.lean ====
section
/-! DEFINITION. When an instruction term is one the encoding can hold: its address argument fits the 12-bit field
(30_encoding.md R51, R52). Nothing else can be ill-formed: every opcode is defined and there is no other field (R55). -/

namespace Sys2Proof

/-- An address argument fits the instruction's address field: it is one of 0x000 to 0xFFF (R51). -/
def addressFits (addr : Word) : Bool := decide (addr.toNat < 4096)

/-- The term is an instruction the 16-bit format can hold without dropping a bit (R52; hazard H-12 of R153 is what
happens to a term that is not). -/
def wellFormed : Instr → Bool
  | .lda addr => addressFits addr
  | .sto addr => addressFits addr
  | .add addr => addressFits addr
  | .sub addr => addressFits addr
  | .jmp addr => addressFits addr
  | .jge addr => addressFits addr
  | .jne addr => addressFits addr
  | .stp => true
  | .cll addr => addressFits addr
  | .ret => true
  | .psh => true
  | .pop => true
  | .ldr addr => addressFits addr
  | .str addr => addressFits addr
  | .movPc => true
  | .movSp => true

end Sys2Proof
end

