-- ==== Sys2Proof/Decode.lean ====
section
/-! DEFINITION. The instruction word, both ways (30_encoding.md R50 to R56, R60): the one opcode table, the fields, the
decoder and the encoder. Every instruction is one 16-bit word and every word is an instruction (R50, R55), so the
decoder of a word refuses nothing; what is not one 16-bit word is refused by `decodeTableWord`. -/

namespace Sys2Proof

/-- `OPCODE_OF` (R3, R54): the number of each opcode, the ONE table of them in the model. The source gives no numbers:
these are the spec's decision D1 (log 2). -/
def opcodeOf : Opcode → BitVec 4
  | .lda => 0x0
  | .sto => 0x1
  | .add => 0x2
  | .sub => 0x3
  | .jmp => 0x4
  | .jge => 0x5
  | .jne => 0x6
  | .stp => 0x7
  | .cll => 0x8
  | .ret => 0x9
  | .psh => 0xA
  | .pop => 0xB
  | .ldr => 0xC
  | .str => 0xD
  | .movPc => 0xE
  | .movSp => 0xF

/-- The sixteen opcodes as a list (R54's order). -/
def allOpcodes : List Opcode :=
  [.lda, .sto, .add, .sub, .jmp, .jge, .jne, .stp, .cll, .ret, .psh, .pop, .ldr, .str, .movPc, .movSp]

/-- The opcode with a given number: `opcodeOf` read backwards. `opcodeOf` takes all sixteen values, so the default
stands for no number (Laws/Encoding.lean, `opcodeOf_opcodeAt`). -/
def opcodeAt (number : BitVec 4) : Opcode :=
  (allOpcodes.find? (fun op => opcodeOf op == number)).getD .lda

/-- The opcode takes an address (R54's column; the others ignore the field, R56). -/
def Opcode.takesAddress : Opcode → Bool
  | .lda => true
  | .sto => true
  | .add => true
  | .sub => true
  | .jmp => true
  | .jge => true
  | .jne => true
  | .stp => false
  | .cll => true
  | .ret => false
  | .psh => false
  | .pop => false
  | .ldr => true
  | .str => true
  | .movPc => false
  | .movSp => false

/-- `word[15:12]`, the opcode field (R51). -/
def opcodeField (word : Word) : BitVec 4 := word.extractLsb' 12 4

/-- `decode_address` (R52): `word & 0x0FFF`, the address field zero-extended to a word. -/
def decodeAddress (word : Word) : Word := word &&& 0x0FFF#16

/-- The instruction of an opcode and an address argument; the six no-address opcodes do not look at it (R56). -/
def instrOf (op : Opcode) (addr : Word) : Instr :=
  match op with
  | .lda => .lda addr
  | .sto => .sto addr
  | .add => .add addr
  | .sub => .sub addr
  | .jmp => .jmp addr
  | .jge => .jge addr
  | .jne => .jne addr
  | .stp => .stp
  | .cll => .cll addr
  | .ret => .ret
  | .psh => .psh
  | .pop => .pop
  | .ldr => .ldr addr
  | .str => .str addr
  | .movPc => .movPc
  | .movSp => .movSp

/-- The instruction a word stands for: total, one instruction for every word (R55, R60). -/
def decode (word : Word) : Instr := instrOf (opcodeAt (opcodeField word)) (decodeAddress word)

/-- The opcode of an instruction. -/
def Instr.opcode : Instr → Opcode
  | .lda _ => .lda
  | .sto _ => .sto
  | .add _ => .add
  | .sub _ => .sub
  | .jmp _ => .jmp
  | .jge _ => .jge
  | .jne _ => .jne
  | .stp => .stp
  | .cll _ => .cll
  | .ret => .ret
  | .psh => .psh
  | .pop => .pop
  | .ldr _ => .ldr
  | .str _ => .str
  | .movPc => .movPc
  | .movSp => .movSp

/-- The address argument of an instruction; zero where it takes none. -/
def Instr.address : Instr → Word
  | .lda addr => addr
  | .sto addr => addr
  | .add addr => addr
  | .sub addr => addr
  | .jmp addr => addr
  | .jge addr => addr
  | .jne addr => addr
  | .stp => 0#16
  | .cll addr => addr
  | .ret => 0#16
  | .psh => 0#16
  | .pop => 0#16
  | .ldr addr => addr
  | .str addr => addr
  | .movPc => 0#16
  | .movSp => 0#16

/-- `encode_no_address(opcode) = opcode << 12` (R52). -/
def encodeNoAddress (op : Opcode) : Word := (opcodeOf op).setWidth 16 <<< 12

/-- `encode(opcode, address) = (opcode << 12) | (address & 0x0FFF)` (R52): an address argument wider than 12 bits is
silently reduced to its low 12 bits. -/
def encodeAddress (op : Opcode) (address : Word) : Word := encodeNoAddress op ||| (address &&& 0x0FFF#16)

/-- The word a producer emits for an instruction: `encode` where the opcode takes an address, `encode_no_address`,
the form with the field zero, where it takes none (R52, R56). -/
def encode (i : Instr) : Word :=
  if i.opcode.takesAddress then encodeAddress i.opcode i.address else encodeNoAddress i.opcode

/-- The decoder over the opcode table's numbering of bits: bit 0 of `w` is bit 0 of the instruction's only word, so
there is no layout of words to make (R38). Refused (none): any length but one 16-bit word, shorter ones included (R50),
and a number that is not of 16 bits. -/
def decodeTableWord (nbits w : Nat) : Option Instr :=
  if nbits = 16 ∧ w < 65536 then some (decode (BitVec.ofNat 16 w)) else none

end Sys2Proof
end

