-- ==== Sys2Proof/Config.lean ====
section
/-! DEFINITION. What is fixed for the machine and is not state (00_scope.md R3, 10_state.md R10), and the one free
value. The opcode numbers, R3's `OPCODE_OF`, are the table `opcodeOf` of Decode.lean. -/

namespace Sys2Proof.Config

/-- `MEMWORDS`: the number of memory words (R3, R21). -/
abbrev memWords : Nat := 4096

/-- `RESET_PC` (R3, R24). -/
def resetPc : Word := 0x0000#16

/-- `RESET_SP` (R3, R24). -/
def resetSp : Word := 0x00FF#16

/-- `any16` (R6): the 16-bit word of the k-th draw, "a value the spec does not fix: a fresh draw each time it is
written, under no law". It has no body, so nothing can be proved of its value (log 4, log 5, log 6). -/
opaque freeWord : Nat → Word

end Sys2Proof.Config
end

