-- ==== Sys2Proof/Machine/State.lean ====
section
/-! DEFINITION. The machine's state, its reset value and the reasons a step can stop (10_state.md R10 to R26, 60_exceptions.md
R130 to R133). Plain data throughout. -/

namespace Sys2Proof.Machine

/-- `phase` (R20): the closed enumeration of nineteen values, the work the next invocation of the engine will do. It
has no numeric encoding, and so no unrecognized value exists (R72, log 14). -/
inductive Phase where
  | fetch0 | fetch1 | decode
  | lda0 | sto0 | add0 | sub0 | jmp0 | jge0 | jne0 | stp0
  | cll0 | ret0 | psh0 | pop0 | ldr0 | str0 | movPc0 | movSp0
deriving DecidableEq, Repr

/-- The memory as cells (address, word), strictly rising addresses, no cell holding what an unlisted address reads as
(`Memory.wf`, Machine/Ops.lean). A cell is one 16-bit value at a word address (20_memory.md R30, R38, log 1). -/
abbrev Memory := List (Nat × Word)

/-- The whole state (R10): "exactly these fields and no others", and `draws`, the model's own. -/
structure State where
  /-- ACC, the accumulator (R11). -/
  acc : Word
  /-- PC, 16 bits, never masked to 12 (R12, R25). -/
  pc : Word
  /-- SP, the address of the next free stack word, 16 bits, never masked to 12 (R13, R25). -/
  sp : Word
  /-- IR, the instruction register (R14). -/
  ir : Word
  /-- `operand`, the whole instruction word as DECODE copied it (R15). -/
  operand : Word
  /-- DIN, the data-in latch (R16). -/
  din : Word
  /-- DOUT, named by the source and read by nothing (R17). -/
  dout : Word
  /-- Z, zero (R18). -/
  z : Bool
  /-- N, negative (R18). -/
  n : Bool
  /-- V, signed overflow (R18). -/
  v : Bool
  /-- C, carry (R18). -/
  c : Bool
  /-- The machine has stopped (R19). -/
  halted : Bool
  /-- The work of the next micro-step (R20). -/
  phase : Phase
  /-- mem[0..4095] (R21). -/
  mem : Memory
  /-- How many free words have been drawn: the model's own field, no state of the spec's (R6 `any16`, log 6). -/
  draws : Nat
deriving DecidableEq, Repr

/-- Why a micro-step has no successor state. Both are the spec's model-level faults, marking an unchecked memory index
of 4096 or more, for which the source defines nothing (20_memory.md R36, R133). -/
inductive Fault where
  /-- Raised by FETCH_1 when PC is 4096 or more; carries that PC (R69). Safe: the model stops where the hardware may
  go on (log 9). -/
  | fetchOutOfRange (pc : Word)
  /-- Raised by PSH and CLL when SP is 4096 or more, and by POP and RET when SP + 1 is; carries the offending index
  (R34, R35). Safe: the model stops where the hardware may go on (log 8). -/
  | stackOutOfRange (index : Word)
deriving DecidableEq, Repr

/-- Why an instruction has no meaning. Every instruction of this machine has one, so no step answers a refusal. -/
inductive Refusal where
  /-- Raised by a dispatch arm whose instruction has no meaning yet. Safe: the model stops. No arm raises it. -/
  | notModelled (mnemonic : String)
deriving DecidableEq, Repr

/-- A diagnostic event, an output of a micro-step and no part of the state (R7, R75, log 11). -/
inductive Diag where
  /-- A checked accessor was given an address of 4096 or more; carries it (R131). -/
  | invalidAddress (addr : Word)
  /-- The defensive case of an unrecognized phase (R132). No micro-step of a closed phase type emits it (log 14). -/
  | fatalInternalError
deriving DecidableEq, Repr

/-- The machine right after reset, with no memory image (R24, R150): every value is the spec's; `draws` is the
model's own (log 6) and the image is given by `State.initial` (Machine/Boot.lean). -/
def State.reset : State where
  acc := 0x0000#16
  pc := Config.resetPc
  sp := Config.resetSp
  ir := 0x0000#16
  operand := 0x0000#16
  din := 0x0000#16
  dout := 0x0000#16
  z := false
  n := false
  v := false
  c := false
  halted := false
  phase := .fetch0
  mem := []
  draws := 0

end Sys2Proof.Machine
end

