-- ==== Sys2Proof/Machine/Ops.lean ====
section
/-! DEFINITION. The operations every instruction is made of: the memory, the two raw primitives and the four accessors
(20_memory.md R31 to R36), the draws of free words (00_scope.md R6), and the end of a micro-step (40_microstep_engine.md
R71). The machine has no trap, no exception entry and no return from one (60_exceptions.md R136, R137), so there is no
such operation here; a rejected access is an event (R131) and an unchecked index out of range a fault (R36). -/

namespace Sys2Proof.Machine

/-! ### The memory -/

/-- What an address that nothing has been put at reads as: 0x0000 (10_state.md R24, log 3). -/
def Memory.unlisted : Word := 0x0000#16

/-- The word at an address (R31, R43). -/
def Memory.read : Memory → Nat → Word
  | [], _ => Memory.unlisted
  | (b, w) :: m, a => if b = a then w else Memory.read m a

/-- The memory without what is listed at `a`. -/
def Memory.erase : Memory → Nat → Memory
  | [], _ => []
  | (b, w) :: m, a => if b = a then Memory.erase m a else (b, w) :: Memory.erase m a

/-- The cell `(a, v)` put in before the first cell of a higher address. -/
def Memory.insert : Memory → Nat → Word → Memory
  | [], a, v => [(a, v)]
  | (b, w) :: m, a, v => if a < b then (a, v) :: (b, w) :: m else (b, w) :: Memory.insert m a v

/-- The memory with `v` at `a` and nothing else changed (R31). Writing what an unlisted address reads as unlists `a`,
so equal memories stay equal lists. -/
def Memory.write (m : Memory) (a : Nat) (v : Word) : Memory :=
  if v = Memory.unlisted then m.erase a else (m.erase a).insert a v

/-- The canonical form: addresses strictly rising and below 4096, no cell equal to what an unlisted address reads as. -/
abbrev Memory.wf (m : Memory) : Prop :=
  m.Pairwise (fun x y => x.1 < y.1) ∧ ∀ x ∈ m, x.1 < Config.memWords ∧ x.2 ≠ Memory.unlisted

/-- The address is the index of a memory word: below 4096 (R30). -/
def inRange (a : Word) : Bool := decide (a.toNat < Config.memWords)

/-- `MemRead(a, 1)` (R31); its callers see to it that `a` is in range. -/
def memRead (a : Word) (s : State) : Word := s.mem.read a.toNat

/-- `MemWrite(a, 1, v)` (R31); its callers see to it that `a` is in range. -/
def memWrite (a v : Word) (s : State) : State := { s with mem := s.mem.write a.toNat v }

/-! ### The four accessors -/

/-- `Lookup(a)`, the source's `address_lookup` (R32): the word at `a` into DIN, or, for an address of 4096 or more,
zero into DIN (conflict C4, log 17) and one diagnostic. -/
def lookup (a : Word) (s : State) : State × List Diag :=
  if inRange a then ({ s with din := memRead a s }, []) else ({ s with din := 0x0000#16 }, [.invalidAddress a])

/-- `Store(a, v)`, the source's `set_address` (R33): the write, or, for an address of 4096 or more, no write at all
and one diagnostic. The address is rejected, not reduced. -/
def store (a v : Word) (s : State) : State × List Diag :=
  if inRange a then (memWrite a v s, []) else (s, [.invalidAddress a])

/-- `Push(v)` (R34): the word goes to the old SP, which is then decremented mod 65536. An SP of 4096 or more is a
fault before anything is written (R36, log 8). -/
def push (v : Word) (s : State) : Except Fault State :=
  if inRange s.sp then .ok { memWrite s.sp v s with sp := s.sp - 1#16 } else .error (.stackOutOfRange s.sp)

/-- `Pop()` (R35): SP is incremented mod 65536 and the word at the new SP is returned; it stays in memory. A new SP
of 4096 or more is a fault before SP is committed (R36, log 8). -/
def pop (s : State) : Except Fault (Word × State) :=
  if inRange (s.sp + 1#16) then .ok (memRead (s.sp + 1#16) s, { s with sp := s.sp + 1#16 })
  else .error (.stackOutOfRange (s.sp + 1#16))

/-! ### Free words, and the end of a micro-step -/

/-- `DIN <- any16` (R16): a fresh free word (log 4). -/
def drawDin (s : State) : State := { s with din := Config.freeWord s.draws, draws := s.draws + 1 }

/-- DOUT after a micro-step of a running machine: a fresh free word (R17, log 5). -/
def drawDout (s : State) : State := { s with dout := Config.freeWord s.draws, draws := s.draws + 1 }

/-- The end of every execute phase but STP_0: `phase <- FETCH_0` (R71), with DOUT left free (R17). -/
def handBack (s : State) : State := { drawDout s with phase := .fetch0 }

/-- Go on with what an unchecked accessor gives; its fault is the micro-step's (R36: no successor state). -/
def orFault {α : Type} (r : Except Fault α) (k : α → State) : Host.Outcome State Fault Refusal :=
  match r with
  | .ok x => .next (k x)
  | .error f => .fault f

end Sys2Proof.Machine
end

