-- ==== Sys2Proof/Machine/Flags.lean ====
section
/-! DEFINITION. The ALU (41_alu.md R80 to R84): the sign test, the flag computations, and the three functions that
write ACC. It has no other function and raises no error. -/

namespace Sys2Proof.Machine

/-- `is_negative(w)`: bit 15 of `w` (R80). -/
def isNegative (w : Word) : Bool := w.getLsbD 15

/-- Z's rule: the result is zero (R81 line 2, R83 line 2). -/
def isZero (w : Word) : Bool := w == 0#16

/-- V's rule for the addition `r = a + b`: the operands have one sign and the result the other (R81 line 4). -/
def addOverflow (a b r : Word) : Bool := (isNegative a == isNegative b) && (isNegative r != isNegative a)

/-- C's rule for the addition with addend `b` and wrapped result `r`: unsigned `r < b` (R81 line 5; preserve this
definition, 90_conflicts.md C10). -/
def addCarry (b r : Word) : Bool := decide (r.toNat < b.toNat)

/-- `neg16(w) = (~w + 1) mod 65536` (R5). -/
def neg16 (w : Word) : Word := ~~~w + 1#16

/-- `alu_add(value)`: ACC and all four flags (R81). -/
def aluAdd (value : Word) (s : State) : State :=
  let r := s.acc + value
  { s with acc := r, z := isZero r, n := isNegative r, v := addOverflow s.acc value r, c := addCarry value r }

/-- `alu_sub(value)`: the addition of the negated value, its flags and all (R82). -/
def aluSub (value : Word) (s : State) : State := aluAdd (neg16 value) s

/-- `alu_load(value)`: ACC, Z and N; V and C keep what they held (R83). -/
def aluLoad (value : Word) (s : State) : State :=
  { s with acc := value, z := isZero value, n := isNegative value }

end Sys2Proof.Machine
end

