-- ==== Sys2Proof/Machine/Operands.lean ====
section
/-! DEFINITION. The operand forms (30_encoding.md R53, 46_indirect_memory.md): the direct address, the word at it, and
the pointer cell. There is no relative, indexed or immediate form. The stack forms are `push` and `pop` of Ops.lean. -/

namespace Sys2Proof.Machine

/-- `ea = operand & 0x0FFF`: the 12-bit absolute address, never sign-extended or added to anything (R53). -/
def ea (operand : Word) : Word := operand &&& 0x0FFF#16

/-- The memory word a direct instruction names, by a raw read: the address is always in range (R37). -/
def directWord (operand : Word) (s : State) : Word := memRead (ea operand) s

/-- The address an indirect instruction accesses: the whole 16-bit word in the cell at `ea`, not masked (R110, R111). -/
def pointer (operand : Word) (s : State) : Word := memRead (ea operand) s

end Sys2Proof.Machine
end

