-- ==== Sys2Proof/Machine/Arithmetic.lean ====
section
/-! DEFINITION. Arithmetic (43_arithmetic.md). DIN is left free: the source does not say whether the read latches it
(10_state.md R16, log 4). -/

namespace Sys2Proof.Machine

/-- ADD_0 (R95): `alu_add` of the memory word at `ea`. -/
def execAdd (operand : Word) (s : State) : Host.Outcome State Fault Refusal :=
  .next (handBack (drawDin (aluAdd (directWord operand s) s)))

/-- SUB_0 (R96): `alu_sub` of the memory word at `ea`. -/
def execSub (operand : Word) (s : State) : Host.Outcome State Fault Refusal :=
  .next (handBack (drawDin (aluSub (directWord operand s) s)))

end Sys2Proof.Machine
end

