-- ==== Sys2Proof/Machine/Direct.lean ====
section
/-! DEFINITION. Direct load and store (42_direct_memory.md). -/

namespace Sys2Proof.Machine

/-- LDA_0 (R90): `Lookup(ea)`, then `alu_load(DIN)`. -/
def execLda (operand : Word) (s : State) : Host.Outcome State Fault Refusal :=
  let looked := (lookup (ea operand) s).1
  .next (handBack (aluLoad looked.din looked))

/-- STO_0 (R91): `Store(ea, ACC)`. -/
def execSto (operand : Word) (s : State) : Host.Outcome State Fault Refusal :=
  .next (handBack (store (ea operand) s.acc s).1)

end Sys2Proof.Machine
end

