-- ==== Sys2Proof/Machine/Indirect.lean ====
section
/-! DEFINITION. Indirect load and store (46_indirect_memory.md), the only instructions that can emit a diagnostic. Each
access is written once, with the events it emits; the meaning takes its state and `execDiags` its events. -/

namespace Sys2Proof.Machine

/-- LDR's two chained lookups and the load (R110 lines 1 to 5), with their events in order. -/
def ldrAccess (operand : Word) (s : State) : State × List Diag :=
  let first := lookup (ea operand) s
  let second := lookup first.1.din first.1
  (aluLoad second.1.din second.1, first.2 ++ second.2)

/-- STR's pointer read and store (R111 lines 1 to 3), with their events: the pointer is read before the write. -/
def strAccess (operand : Word) (s : State) : State × List Diag :=
  store (pointer operand s) s.acc s

/-- LDR_0 (R110). A pointer of 4096 or more delivers zero. -/
def execLdr (operand : Word) (s : State) : Host.Outcome State Fault Refusal :=
  .next (handBack (ldrAccess operand s).1)

/-- STR_0 (R111). A pointer of 4096 or more writes nothing; DIN is left free (log 4). -/
def execStr (operand : Word) (s : State) : Host.Outcome State Fault Refusal :=
  .next (handBack (drawDin (strAccess operand s).1))

end Sys2Proof.Machine
end

