-- ==== Sys2Proof/Machine/Jumps.lean ====
section
/-! DEFINITION. Jumps (44_jumps.md): absolute targets, no link, no delay slot; a jump not taken leaves PC as FETCH_1 set
it. -/

namespace Sys2Proof.Machine

/-- JMP_0 (R100): `PC <- operand & 0x0FFF`. -/
def execJmp (operand : Word) (s : State) : Host.Outcome State Fault Refusal :=
  .next (handBack { s with pc := ea operand })

/-- JGE_0 (R101): the jump if N is false; V is not consulted. -/
def execJge (operand : Word) (s : State) : Host.Outcome State Fault Refusal :=
  .next (handBack { s with pc := if s.n then s.pc else ea operand })

/-- JNE_0 (R102): the jump if Z is false. -/
def execJne (operand : Word) (s : State) : Host.Outcome State Fault Refusal :=
  .next (handBack { s with pc := if s.z then s.pc else ea operand })

end Sys2Proof.Machine
end

