-- ==== Sys2Proof/Machine/Moves.lean ====
section
/-! DEFINITION. Register moves (47_register_moves.md): all 16 bits of ACC, no masking, no error in this phase. -/

namespace Sys2Proof.Machine

/-- MOV_PC_0 (R115): `PC <- ACC`. -/
def execMovPc (s : State) : Host.Outcome State Fault Refusal :=
  .next (handBack { s with pc := s.acc })

/-- MOV_SP_0 (R116): `SP <- ACC`. -/
def execMovSp (s : State) : Host.Outcome State Fault Refusal :=
  .next (handBack { s with sp := s.acc })

end Sys2Proof.Machine
end

