-- ==== Sys2Proof/Machine/Stack.lean ====
section
/-! DEFINITION. Stack and subroutine instructions (45_stack_call.md). The reads of POP and RET leave DIN free (10_state.md
R16, log 4). -/

namespace Sys2Proof.Machine

/-- PSH_0 (R105): `Push(ACC)`. -/
def execPsh (s : State) : Host.Outcome State Fault Refusal :=
  orFault (push s.acc s) handBack

/-- POP_0 (R106): the popped word by `alu_load`. -/
def execPop (s : State) : Host.Outcome State Fault Refusal :=
  orFault (pop s) fun p => handBack (drawDin (aluLoad p.1 p.2))

/-- CLL_0 (R107): `Push(PC)`, all 16 bits, PC being the address after the call; then the jump. A fault of the push
leaves PC as it was. -/
def execCll (operand : Word) (s : State) : Host.Outcome State Fault Refusal :=
  orFault (push s.pc s) fun pushed => handBack { pushed with pc := ea operand }

/-- RET_0 (R108): the popped word into PC, unmasked; no flag changes. -/
def execRet (s : State) : Host.Outcome State Fault Refusal :=
  orFault (pop s) fun p => handBack (drawDin { p.2 with pc := p.1 })

end Sys2Proof.Machine
end

