-- ==== Sys2Proof/Machine/Stop.lean ====
section
/-! DEFINITION. Stop (48_stop.md), the only system instruction. -/

namespace Sys2Proof.Machine

/-- STP_0 (R120): `halted <- true`; the phase stays. DOUT is left free, as after any micro-step (R17, log 5). -/
def execStp (s : State) : Host.Outcome State Fault Refusal :=
  .next { drawDout s with halted := true }

end Sys2Proof.Machine
end

