-- ==== Sys2Proof/Machine/Dispatch.lean ====
section
/-! DEFINITION. The execute phase of each instruction (30_encoding.md R54): one arm per constructor of Instr. -/

namespace Sys2Proof.Machine

/-- The work of an instruction's one execute phase (R66, R71), PC being already the address after the instruction. -/
def exec (i : Instr) (s : State) : Host.Outcome State Fault Refusal :=
  match i with
  | .lda addr => Sys2Proof.Machine.execLda addr s
  | .sto addr => Sys2Proof.Machine.execSto addr s
  | .add addr => Sys2Proof.Machine.execAdd addr s
  | .sub addr => Sys2Proof.Machine.execSub addr s
  | .jmp addr => Sys2Proof.Machine.execJmp addr s
  | .jge addr => Sys2Proof.Machine.execJge addr s
  | .jne addr => Sys2Proof.Machine.execJne addr s
  | .stp => Sys2Proof.Machine.execStp s
  | .cll addr => Sys2Proof.Machine.execCll addr s
  | .ret => Sys2Proof.Machine.execRet s
  | .psh => Sys2Proof.Machine.execPsh s
  | .pop => Sys2Proof.Machine.execPop s
  | .ldr addr => Sys2Proof.Machine.execLdr addr s
  | .str addr => Sys2Proof.Machine.execStr addr s
  | .movPc => Sys2Proof.Machine.execMovPc s
  | .movSp => Sys2Proof.Machine.execMovSp s

end Sys2Proof.Machine
end

