-- ==== Sys2Proof/Machine/Engine.lean ====
section
/-! DEFINITION. The micro-step engine (40_microstep_engine.md): the three phases common to every instruction, the
hand-over to the execute phases, and the events a micro-step emits. -/

namespace Sys2Proof.Machine

/-- `EXEC_PHASE` by name: the execute phase of each opcode (R54, R70). -/
def execPhase : Opcode → Phase
  | .lda => .lda0
  | .sto => .sto0
  | .add => .add0
  | .sub => .sub0
  | .jmp => .jmp0
  | .jge => .jge0
  | .jne => .jne0
  | .stp => .stp0
  | .cll => .cll0
  | .ret => .ret0
  | .psh => .psh0
  | .pop => .pop0
  | .ldr => .ldr0
  | .str => .str0
  | .movPc => .movPc0
  | .movSp => .movSp0

/-- The opcode whose execute phase it is; none for the three common phases. -/
def Phase.opcode : Phase → Option Opcode
  | .fetch0 => none
  | .fetch1 => none
  | .decode => none
  | .lda0 => some .lda
  | .sto0 => some .sto
  | .add0 => some .add
  | .sub0 => some .sub
  | .jmp0 => some .jmp
  | .jge0 => some .jge
  | .jne0 => some .jne
  | .stp0 => some .stp
  | .cll0 => some .cll
  | .ret0 => some .ret
  | .psh0 => some .psh
  | .pop0 => some .pop
  | .ldr0 => some .ldr
  | .str0 => some .str
  | .movPc0 => some .movPc
  | .movSp0 => some .movSp

/-- FETCH_0 (R68): only the phase changes (log 12), and DOUT is left free (R17, log 5). -/
def fetch0 (s : State) : State := { drawDout s with phase := .fetch1 }

/-- FETCH_1 (R69): IR from the word at PC, PC incremented in 16 bits; DIN is left free (log 4). A PC of 4096 or more
is a fault before anything is written (R36, log 9). -/
def fetch1 (s : State) : Except Fault State :=
  if inRange s.pc then
    .ok { drawDout (drawDin { s with ir := memRead s.pc s, pc := s.pc + 1#16 }) with phase := .decode }
  else .error (.fetchOutOfRange s.pc)

/-- DECODE (R70): the whole word into `operand`, and the execute phase of its opcode. -/
def decodeStep (s : State) : State :=
  { drawDout s with operand := s.ir, phase := execPhase (opcodeAt (opcodeField s.ir)) }

/-- One invocation of the engine (R65): a halted machine does not change (R67, log 10); otherwise the phase's work.
An execute phase takes its address from `operand`, not from IR (R53, R71), also in the states no run reaches (log 19). -/
def microStep (s : State) : Host.Outcome State Fault Refusal :=
  if s.halted then .next s
  else
    match s.phase with
    | .fetch0 => .next (fetch0 s)
    | .fetch1 => orFault (fetch1 s) id
    | .decode => .next (decodeStep s)
    | .lda0 => exec (.lda (decodeAddress s.operand)) s
    | .sto0 => exec (.sto (decodeAddress s.operand)) s
    | .add0 => exec (.add (decodeAddress s.operand)) s
    | .sub0 => exec (.sub (decodeAddress s.operand)) s
    | .jmp0 => exec (.jmp (decodeAddress s.operand)) s
    | .jge0 => exec (.jge (decodeAddress s.operand)) s
    | .jne0 => exec (.jne (decodeAddress s.operand)) s
    | .stp0 => exec .stp s
    | .cll0 => exec (.cll (decodeAddress s.operand)) s
    | .ret0 => exec .ret s
    | .psh0 => exec .psh s
    | .pop0 => exec .pop s
    | .ldr0 => exec (.ldr (decodeAddress s.operand)) s
    | .str0 => exec (.str (decodeAddress s.operand)) s
    | .movPc0 => exec .movPc s
    | .movSp0 => exec .movSp s

/-- The instruction whose execute phase the machine is in, from `phase` and `operand`; none in a common phase. For the
events of a micro-step, and for what is stated about runs. -/
def currentInstr (s : State) : Option Instr :=
  s.phase.opcode.map fun op => instrOf op (decodeAddress s.operand)

/-! ### Events -/

/-- The diagnostic events of an instruction's execute phase, in the order emitted (R75, R131): only LDR and STR can
emit one. -/
def execDiags (i : Instr) (s : State) : List Diag :=
  match i with
  | .lda addr => (lookup (ea addr) s).2
  | .sto addr => (store (ea addr) s.acc s).2
  | .add _ => []
  | .sub _ => []
  | .jmp _ => []
  | .jge _ => []
  | .jne _ => []
  | .stp => []
  | .cll _ => []
  | .ret => []
  | .psh => []
  | .pop => []
  | .ldr addr => (ldrAccess addr s).2
  | .str addr => (strAccess addr s).2
  | .movPc => []
  | .movSp => []

/-- The events the micro-step at `s` emits: an output beside the next state, never fed back into it (R7, R75, log 11). -/
def emitted (s : State) : List Diag :=
  if s.halted then []
  else
    match currentInstr s with
    | some i => execDiags i s
    | none => []

/-! ### Placing an instruction -/

/-- The state in which the next micro-step is the execute phase of the instruction `word`, fetched where `s` fetches
its next: `word` put at PC, the machine running, and the three common micro-steps done (log 7). A PC from which
nothing can be fetched is first set to the entry point. -/
def placeFetched (word : Word) (s : State) : State :=
  let pc := if inRange s.pc then s.pc else Config.resetPc
  let placed := memWrite pc word { s with pc := pc, halted := false, phase := .fetch0 }
  match fetch1 (fetch0 placed) with
  | .ok fetched => decodeStep fetched
  | .error _ => placed

end Sys2Proof.Machine
end

