-- ==== Sys2Proof/Machine/Step.lean ====
section
/-! DEFINITION. The step: one invocation of the micro-step engine (40_microstep_engine.md R65). -/

namespace Sys2Proof.Machine

/-- One micro-step; an instruction is four of them (R65, R73, log 7). -/
def step (s : State) : Host.Outcome State Fault Refusal := microStep s

/-- The spec's whole outcome of a micro-step (00_scope.md R7): the next state with the events emitted, or a fault. -/
def invoke (s : State) : Host.Outcome (State × List Diag) Fault Refusal :=
  match step s with
  | .next t => .next (t, emitted s)
  | .fault f => .fault f
  | .refused r => .refused r

/-- `s` with the instruction of table bits `w` fetched, so that the very next step runs it (log 7). -/
def State.withFetchWord (s : State) (nbits w : Nat) : State :=
  placeFetched (BitVec.ofNat 16 (w % 2 ^ nbits)) s

end Sys2Proof.Machine
end

