-- ==== Sys2Proof/Machine/Boot.lean ====
section
/-! DEFINITION. The driver's side of the interface (70_reset_and_hazards.md R150 to R154): the initial state for a memory
image, and observation. -/

namespace Sys2Proof.Machine

/-- The memory a caller populates: the image's (address, word) pairs written in order onto memory of zeros; a pair
whose address is 4096 or more names no word and puts nothing (R150, log 20). -/
def Memory.ofImage (image : List (Nat × Word)) : Memory :=
  image.foldl (fun m x => if x.1 < Config.memWords then m.write x.1 x.2 else m) []

/-- A block of words at consecutive addresses from `base`, as an image. -/
def imageAt (base : Nat) (words : List Word) : List (Nat × Word) :=
  words.zipIdx.map fun x => (base + x.2, x.1)

/-- The state the initialisation contract gives for a memory image (R24, R150). -/
def State.initial (image : List (Nat × Word)) : State := { State.reset with mem := Memory.ofImage image }

/-- Observe (R154): the memory word at an address, none where no word exists. Reading changes nothing (R48). -/
def State.peek (s : State) (a : Nat) : Option Word := if a < Config.memWords then some (s.mem.read a) else none

end Sys2Proof.Machine
end

