-- ==== Sys2Proof/Safety.lean ====
section
/-! DEFINITION. What claims say of runs (40_microstep_engine.md R76, 60_exceptions.md R133) and the invariants of the
machine. -/

namespace Sys2Proof.Safety

open Sys2Proof.Machine

/-- `k` invocations of the engine, stopping at the first fault (R65, R76): the host's `core.run`, over the model's own
types (Laws/Step.lean, `core_run`). -/
def run : Nat → State → Host.Outcome State Fault Refusal
  | 0, s => .next s
  | k + 1, s =>
    match step s with
    | .next t => run k t
    | .fault f => .fault f
    | .refused r => .refused r

/-- `k` invocations of the engine from `s` end in `t`, with no fault on the way (R76). -/
def reaches (k : Nat) (s t : State) : Prop := run k s = .next t

/-- No run from `s` meets a fault or a refusal: what a claim about a program must show before it speaks of the
original machine (R133). -/
def faultFree (s : State) : Prop := ∀ k, ∃ t, reaches k s t

/-- The state is final (R76): exactly when the machine has halted. -/
def final (s : State) : Prop := s.halted = true

/-- The program run from `s` halts in `t` after `k` micro-steps (R76, R73). -/
def haltsIn (k : Nat) (s t : State) : Prop := reaches k s t ∧ final t

/-- The engine is in step with its instruction registers: outside DECODE `operand` is IR (10_state.md R15); an execute
phase is that of IR's opcode (R70); a halted machine is in STP_0 (R67). -/
def coherent (s : State) : Prop :=
  (s.phase ≠ .decode → s.operand = s.ir) ∧
  (∀ op, s.phase.opcode = some op → op = opcodeAt (opcodeField s.ir)) ∧
  (s.halted = true → s.phase = .stp0)

/-- Z and N describe ACC (10_state.md R26): not so at reset, and so from the first LDA, ADD, SUB, POP or LDR on. -/
def flagsDescribeAcc (s : State) : Prop := s.z = decide (s.acc = 0#16) ∧ s.n = s.acc.getLsbD 15

end Sys2Proof.Safety
end

