-- ==== Sys2Proof/Certificates/Slice0/Obligations.lean ====
section
/-! DEFINITION. The statements about the model. Most have the form "there is a next state t, and t is s with these fields
changed": a whole frame in one equation, since every field not listed is as in s. The fields `dout` and `draws`, and
`din` where the spec leaves it `any16`, stand in that equation as t's own, so nothing is said of a free value (log 4,
log 5, log 6). An address argument is any 16-bit word, ill-formed ones included: the execute phases mask it. -/

open Sys2Proof Sys2Proof.Machine Sys2Proof.Safety

/-! ### The instruction word -/

/-- Encoding an instruction drops no bit of it: decoding its word gives it back, with its address argument at every
value the field holds (30_encoding.md R52, R60; the numbers are the spec's decision D1, log 2). -/
def Obligations.DecodeOfEncodeIsTheInstruction : Prop :=
  ∀ i : Instr, wellFormed i = true → decode (encode i) = i

/-- The other way round, a word is re-encoded as itself, but for the address bits a no-address opcode ignores, which
come out zero (R55, R56). -/
def Obligations.EncodeOfDecodeIsTheCanonicalWord : Prop :=
  ∀ word : Word, encode (decode word) = if (decode word).opcode.takesAddress then word else word &&& 0xF000#16

/-- R52, the encoding contract: the three functions, the fetch-decode roundtrip and the opcode field. -/
def Obligations.EncodingFunctionsFollowTheContract : Prop :=
  (∀ (op : Opcode) (address : Word),
    encodeAddress op address = ((opcodeOf op).setWidth 16 <<< 12) ||| (address &&& 0x0FFF#16)) ∧
  (∀ op : Opcode,
    encodeNoAddress op = (opcodeOf op).setWidth 16 <<< 12 ∧ encodeNoAddress op = encodeAddress op 0#16) ∧
  (∀ word : Word, decodeAddress word = word &&& 0x0FFF#16) ∧
  (∀ (op : Opcode) (address : Word), address.toNat < 4096 → decodeAddress (encodeAddress op address) = address) ∧
  (∀ (op : Opcode) (address : Word), (encodeAddress op address).extractLsb' 12 4 = opcodeOf op)

/-- R60: DECODE takes every one of the sixteen opcode values to exactly one execute phase, and the pattern of each
opcode is mask 0xF000, match its number shifted to the top: the sixteen patterns are disjoint and cover all words. -/
def Obligations.DecodeIsTotalAndSingleValued : Prop :=
  (∀ s : State, s.halted = false → s.phase = .decode →
    ∃ t op, step s = .next t ∧ t.phase = execPhase op ∧ t.phase ≠ .decode ∧ opcodeOf op = opcodeField s.ir) ∧
  (∀ number : BitVec 4, ∃! op : Opcode, opcodeOf op = number) ∧
  (∀ op op' : Opcode, execPhase op = execPhase op' → op = op') ∧
  (∀ (word : Word) (op : Opcode), (decode word).opcode = op ↔ word &&& 0xF000#16 = (opcodeOf op).setWidth 16 <<< 12)

/-- R56: all 4096 words of a no-address opcode are one instruction, its execute phase does not read `operand`, and a
conditional jump that is not taken does not read it either (decision D17, log 15). Nothing is said of DIN, DOUT and
`draws` in the second step, which R16 and R17 may leave free there. -/
def Obligations.IgnoredAddressBitsHaveNoEffect : Prop :=
  (∀ word word' : Word, opcodeField word = opcodeField word' → (decode word).opcode.takesAddress = false →
    decode word = decode word') ∧
  (∀ (s : State) (x : Word) (op : Opcode), op.takesAddress = false → s.phase = execPhase op →
    (∀ t, step s = .next t → ∃ din' dout' draws', step { s with operand := x } =
      .next { t with operand := x, din := din', dout := dout', draws := draws' }) ∧
    (∀ f, step s = .fault f → step { s with operand := x } = .fault f)) ∧
  (∀ (s t : State) (x : Word), (s.phase = .jge0 ∧ s.n = true) ∨ (s.phase = .jne0 ∧ s.z = true) → step s = .next t →
    ∃ din' dout' draws', step { s with operand := x } =
      .next { t with operand := x, din := din', dout := dout', draws := draws' })

/-- A word of each family, written out from the encodings of R90 to R120, stands for the instruction it should (the
opcode numbers are the spec's decision D1, log 2). -/
def Obligations.WrittenWordsDecode : Prop :=
  decode 0b0000000100100011 = .lda 0x123 ∧ decode 0b0001111111111111 = .sto 0xFFF ∧
  decode 0b0011000000100000 = .sub 0x020 ∧ decode 0b0101000000000101 = .jge 0x005 ∧
  decode 0b1000000000010000 = .cll 0x010 ∧ decode 0b1101000000100001 = .str 0x021 ∧
  decode 0b0111101010111100 = .stp ∧ decode 0b1111000000000000 = .movSp

/-- R53: the address an instruction uses is the low 12 bits of `operand` as an unsigned number, the opcode bits masked
off; on a word that fits the field it is that word. -/
def Obligations.DirectAddressIsTheLowTwelveBits : Prop :=
  ∀ operand : Word, (ea operand).toNat = operand.toNat % 4096 ∧ ea operand = decodeAddress operand ∧
    (addressFits operand = true → ea operand = operand)

/-! ### The ALU -/

/-- R80: the sign test is bit 15, true exactly for 0x8000 to 0xFFFF. -/
def Obligations.SignTestIsBitFifteen : Prop :=
  ∀ w : Word, isNegative w = w.getLsbD 15 ∧ (isNegative w = true ↔ 0x8000 ≤ w.toNat)

/-- R81: `alu_add` writes the sum mod 65536 to ACC and all four flags by its formulas, and nothing else. -/
def Obligations.AluAddComputesSumAndFlags : Prop :=
  ∀ (s : State) (b : Word),
    let t := aluAdd b s
    t = { s with acc := t.acc, z := t.z, n := t.n, v := t.v, c := t.c } ∧
    t.acc.toNat = (s.acc.toNat + b.toNat) % 65536 ∧
    (t.z = true ↔ t.acc = 0#16) ∧
    (t.n = true ↔ t.acc.getLsbD 15 = true) ∧
    (t.v = true ↔ s.acc.getLsbD 15 = b.getLsbD 15 ∧ t.acc.getLsbD 15 ≠ s.acc.getLsbD 15) ∧
    (t.c = true ↔ t.acc.toNat < b.toNat)

/-- R82: `alu_sub` is `alu_add` of the two's-complement negation, flags and all, and ACC becomes the difference mod
65536. -/
def Obligations.AluSubAddsTheNegation : Prop :=
  ∀ (s : State) (b : Word), aluSub b s = aluAdd (~~~b + 1#16) s ∧
    (aluSub b s).acc = s.acc - b ∧
    (aluSub b s).acc.toNat = (s.acc.toNat + (65536 - b.toNat)) % 65536

/-- R83: `alu_load` writes ACC, Z and N from the value alone; V and C keep what they held. -/
def Obligations.AluLoadLeavesCarryAndOverflow : Prop :=
  ∀ (s : State) (value : Word),
    aluLoad value s = { s with acc := value, z := decide (value = 0#16), n := decide (0x8000 ≤ value.toNat) } ∧
    (aluLoad value s).v = s.v ∧ (aluLoad value s).c = s.c

/-- R85 laws 2 and 3: after ADD, C is the carry out of bit 15 and V the signed overflow. -/
def Obligations.AddFlagsAreCarryAndSignedOverflow : Prop :=
  ∀ (s : State) (b : Word),
    (aluAdd b s).c = decide (65536 ≤ s.acc.toNat + b.toNat) ∧
    (aluAdd b s).v = decide (s.acc.toInt + b.toInt < -32768 ∨ 32767 < s.acc.toInt + b.toInt)

/-- R85 laws 4, 5 and 8: after SUB, C is "no borrow" except at a subtrahend of zero, V the signed overflow except at
0x8000, where it is its opposite; and a SUB after an ADD of the same word restores ACC. -/
def Obligations.SubFlagsAreNoBorrowAndOverflowWithTwoExceptions : Prop :=
  ∀ (s : State) (b : Word),
    (aluSub b s).c = decide (b ≠ 0#16 ∧ b.toNat ≤ s.acc.toNat) ∧
    (b ≠ 0x8000#16 →
      (aluSub b s).v = decide (s.acc.toInt - b.toInt < -32768 ∨ 32767 < s.acc.toInt - b.toInt)) ∧
    (b = 0x8000#16 → (aluSub b s).v = decide (0x8000 ≤ s.acc.toNat) ∧
      (aluSub b s).v = !decide (s.acc.toInt - b.toInt < -32768 ∨ 32767 < s.acc.toInt - b.toInt)) ∧
    (aluSub b (aluAdd b s)).acc = s.acc

/-! ### The memory and its accessors -/

/-- R32: Lookup delivers the word at an address below 4096 into DIN, and for any other address zero, with one
diagnostic carrying the address. Two clauses are choices, not the source's words: that the zero is written whatever DIN
held (the resolution of conflict C4, log 17) and that the event carries the address (decision D7, log 11). -/
def Obligations.LookupDeliversTheWordOrZero : Prop :=
  ∀ (s : State) (a : Word),
    (a.toNat < 4096 → lookup a s = ({ s with din := s.mem.read a.toNat }, [])) ∧
    (4096 ≤ a.toNat → lookup a s = ({ s with din := 0x0000#16 }, [.invalidAddress a]))

/-- R33: Store writes the word at an address below 4096 and no other word; for any other address it writes nothing and
emits one diagnostic. That the event carries the address is a choice, not the source's words (decision D7, log 11). -/
def Obligations.StoreWritesOneWordOrNothing : Prop :=
  ∀ (s : State) (a v : Word),
    (a.toNat < 4096 → ∃ t, store a v s = (t, []) ∧ t = { s with mem := t.mem } ∧ t.mem.read a.toNat = v ∧
      ∀ x, x ≠ a.toNat → t.mem.read x = s.mem.read x) ∧
    (4096 ≤ a.toNat → store a v s = (s, [.invalidAddress a]))

/-- The source's stack roundtrip with the condition of 90_conflicts.md C5: a pop right after a push returns the word and
restores SP, for every word and every SP below 4096, SP = 0 included (R34, R35). -/
def Obligations.PopAfterPushReturnsTheWord : Prop :=
  ∀ (s : State) (v : Word), s.sp.toNat < 4096 →
    ∃ t, push v s = .ok t ∧ t = { s with sp := s.sp - 1#16, mem := t.mem } ∧ t.mem.read s.sp.toNat = v ∧
      (∀ x, x ≠ s.sp.toNat → t.mem.read x = s.mem.read x) ∧ pop t = .ok (v, { s with mem := t.mem })

/-- The memory's canonical form is canonical: two memories in it that read alike at every address of the space are
equal (R21, R43; the form is the model's choice, log 1). -/
def Obligations.CanonicalMemoriesThatReadAlikeAreEqual : Prop :=
  ∀ m m' : Memory, m.wf → m'.wf → (∀ a, a < 4096 → m.read a = m'.read a) → m = m'

/-- R24, R150: the initial state for an image has the reset values, and each address reads as the last word the image
puts there, 0x0000 where it puts none (decision D12, log 3; what a pair outside the space does is log 20). -/
def Obligations.InitialStateHoldsTheImage : Prop :=
  ∀ image : List (Nat × Word),
    State.initial image = { State.reset with mem := (State.initial image).mem } ∧
    ∀ a, a < 4096 →
      (State.initial image).mem.read a = ((image.reverse.find? (fun x => x.1 == a)).map Prod.snd).getD 0x0000#16

/-! ### The instructions: each completes, with its whole effect and frame -/

/-- R90 (its encoding apart): LDA loads the word at the direct address into DIN and ACC, sets Z and N from it, and
changes no other field; no word of memory changes. -/
def Obligations.LdaLoadsTheDirectWord : Prop :=
  ∀ (s : State) (addr : Word),
    let m := s.mem.read (ea addr).toNat
    ∃ t, exec (.lda addr) s = .next t ∧
      t = { s with acc := m, din := m, z := decide (m = 0#16), n := decide (0x8000 ≤ m.toNat), phase := .fetch0,
                   dout := t.dout, draws := t.draws }

/-- R91 (its encoding apart): STO puts ACC at the direct address, changes no other word of memory and no other field. -/
def Obligations.StoStoresAtTheDirectAddress : Prop :=
  ∀ (s : State) (addr : Word),
    ∃ t, exec (.sto addr) s = .next t ∧
      t = { s with mem := t.mem, phase := .fetch0, dout := t.dout, draws := t.draws } ∧
      t.mem.read (ea addr).toNat = s.acc ∧
      ∀ x, x ≠ (ea addr).toNat → t.mem.read x = s.mem.read x

/-- R95 (its encoding apart): ADD writes ACC and the four flags of the addition of the memory word, and no other field;
no word of memory changes. DIN is free (log 4). -/
def Obligations.AddAddsTheDirectWord : Prop :=
  ∀ (s : State) (addr : Word),
    let m := s.mem.read (ea addr).toNat
    let r := s.acc + m
    ∃ t, exec (.add addr) s = .next t ∧
      t = { s with acc := r, z := decide (r = 0#16), n := r.getLsbD 15,
                   v := decide (s.acc.getLsbD 15 = m.getLsbD 15 ∧ r.getLsbD 15 ≠ s.acc.getLsbD 15),
                   c := decide (r.toNat < m.toNat), phase := .fetch0,
                   din := t.din, dout := t.dout, draws := t.draws }

/-- R96 (its encoding apart): SUB writes ACC and the four flags of the addition of the negated memory word, and no other
field; no word of memory changes. DIN is free (log 4). -/
def Obligations.SubSubtractsTheDirectWord : Prop :=
  ∀ (s : State) (addr : Word),
    let m := s.mem.read (ea addr).toNat
    let nm := ~~~m + 1#16
    let r := s.acc - m
    ∃ t, exec (.sub addr) s = .next t ∧
      t = { s with acc := r, z := decide (r = 0#16), n := r.getLsbD 15,
                   v := decide (s.acc.getLsbD 15 = nm.getLsbD 15 ∧ r.getLsbD 15 ≠ s.acc.getLsbD 15),
                   c := decide (r.toNat < nm.toNat), phase := .fetch0,
                   din := t.din, dout := t.dout, draws := t.draws }

/-- R100 (its encoding apart): JMP sets PC to the 12-bit address and changes no other field, flag or memory word. -/
def Obligations.JmpSetsPc : Prop :=
  ∀ (s : State) (addr : Word),
    ∃ t, exec (.jmp addr) s = .next t ∧
      t = { s with pc := ea addr, phase := .fetch0, dout := t.dout, draws := t.draws }

/-- R101 (its encoding apart): JGE sets PC to the 12-bit address exactly when N is false; V and Z play no part. -/
def Obligations.JgeJumpsWhenNIsClear : Prop :=
  ∀ (s : State) (addr : Word),
    ∃ t, exec (.jge addr) s = .next t ∧
      t = { s with pc := if s.n = false then ea addr else s.pc, phase := .fetch0, dout := t.dout, draws := t.draws }

/-- R102 (its encoding apart): JNE sets PC to the 12-bit address exactly when Z is false; ACC plays no part. -/
def Obligations.JneJumpsWhenZIsClear : Prop :=
  ∀ (s : State) (addr : Word),
    ∃ t, exec (.jne addr) s = .next t ∧
      t = { s with pc := if s.z = false then ea addr else s.pc, phase := .fetch0, dout := t.dout, draws := t.draws }

/-- R120 (its encoding apart): STP sets `halted`; the phase and every other field stay. -/
def Obligations.StpHalts : Prop :=
  ∀ s : State, ∃ t, exec .stp s = .next t ∧ t = { s with halted := true, dout := t.dout, draws := t.draws }

/-- R107 (its encoding apart): CLL pushes the 16-bit PC at the old SP, decrements SP mod 65536 and jumps; with SP of
4096 or more it is the model-level fault of R36 (decision D2, log 8), whatever else the state holds. -/
def Obligations.CllPushesPcAndJumps : Prop :=
  ∀ (s : State) (addr : Word),
    (s.sp.toNat < 4096 → ∃ t, exec (.cll addr) s = .next t ∧
      t = { s with pc := ea addr, sp := s.sp - 1#16, mem := t.mem, phase := .fetch0, dout := t.dout, draws := t.draws } ∧
      t.mem.read s.sp.toNat = s.pc ∧
      ∀ x, x ≠ s.sp.toNat → t.mem.read x = s.mem.read x) ∧
    (4096 ≤ s.sp.toNat → exec (.cll addr) s = .fault (.stackOutOfRange s.sp))

/-- R108 (its encoding apart): RET increments SP mod 65536 and loads PC, unmasked, from the word there; no flag and no
word of memory changes; with the new SP at 4096 or more it is the model-level fault of R36 (decision D2, log 8). -/
def Obligations.RetPopsPc : Prop :=
  ∀ s : State,
    ((s.sp + 1#16).toNat < 4096 → ∃ t, exec .ret s = .next t ∧
      t = { s with pc := s.mem.read (s.sp + 1#16).toNat, sp := s.sp + 1#16, phase := .fetch0,
                   din := t.din, dout := t.dout, draws := t.draws }) ∧
    (4096 ≤ (s.sp + 1#16).toNat → exec .ret s = .fault (.stackOutOfRange (s.sp + 1#16)))

/-- R105 (its encoding apart): PSH puts ACC at the old SP and decrements SP mod 65536, so that SP = 0 becomes 0xFFFF;
with SP of 4096 or more it is the model-level fault of R36 (decision D2, log 8). -/
def Obligations.PshPushesAcc : Prop :=
  ∀ s : State,
    (s.sp.toNat < 4096 → ∃ t, exec .psh s = .next t ∧
      t = { s with sp := s.sp - 1#16, mem := t.mem, phase := .fetch0, dout := t.dout, draws := t.draws } ∧
      t.mem.read s.sp.toNat = s.acc ∧
      ∀ x, x ≠ s.sp.toNat → t.mem.read x = s.mem.read x) ∧
    (4096 ≤ s.sp.toNat → exec .psh s = .fault (.stackOutOfRange s.sp))

/-- R106 (its encoding apart): POP increments SP mod 65536, loads ACC from the word there and sets Z and N from it; no
word of memory changes; with the new SP at 4096 or more it is the model-level fault of R36 (decision D2, log 8). -/
def Obligations.PopLoadsAccFromTheStack : Prop :=
  ∀ s : State,
    ((s.sp + 1#16).toNat < 4096 → ∃ t, exec .pop s = .next t ∧
      t = { s with acc := s.mem.read (s.sp + 1#16).toNat, z := decide (s.mem.read (s.sp + 1#16).toNat = 0#16),
                   n := (s.mem.read (s.sp + 1#16).toNat).getLsbD 15, sp := s.sp + 1#16, phase := .fetch0,
                   din := t.din, dout := t.dout, draws := t.draws }) ∧
    (4096 ≤ (s.sp + 1#16).toNat → exec .pop s = .fault (.stackOutOfRange (s.sp + 1#16)))

/-- R110 (its encoding apart): LDR loads through the unmasked 16-bit pointer; a pointer of 4096 or more delivers zero
and one diagnostic, and execution goes on. Two clauses are choices, not the source's words: that the zero is written
whatever DIN held (the resolution of conflict C4, log 17) and that the event carries the pointer (decision D7, log 11). -/
def Obligations.LdrLoadsThroughThePointer : Prop :=
  ∀ (s : State) (addr : Word),
    let p := s.mem.read (ea addr).toNat
    let m : Word := if p.toNat < 4096 then s.mem.read p.toNat else 0#16
    (∃ t, exec (.ldr addr) s = .next t ∧
      t = { s with acc := m, din := m, z := decide (m = 0#16), n := m.getLsbD 15, phase := .fetch0,
                   dout := t.dout, draws := t.draws }) ∧
    execDiags (.ldr addr) s = if p.toNat < 4096 then [] else [.invalidAddress p]

/-- R111 (its encoding apart): STR puts ACC at the unmasked 16-bit pointer; through a pointer of 4096 or more it writes
nothing and emits one diagnostic. In both cases it completes, and no other word of memory changes. That the event
carries the pointer is a choice, not the source's words (decision D7, log 11). -/
def Obligations.StrStoresThroughThePointer : Prop :=
  ∀ (s : State) (addr : Word),
    (∃ t, exec (.str addr) s = .next t ∧
      t = { s with mem := t.mem, phase := .fetch0, din := t.din, dout := t.dout, draws := t.draws } ∧
      ((pointer addr s).toNat < 4096 → t.mem.read (pointer addr s).toNat = s.acc) ∧
      (4096 ≤ (pointer addr s).toNat → t.mem = s.mem) ∧
      ∀ x, x ≠ (pointer addr s).toNat → t.mem.read x = s.mem.read x) ∧
    pointer addr s = s.mem.read (ea addr).toNat ∧
    execDiags (.str addr) s = if (pointer addr s).toNat < 4096 then [] else [.invalidAddress (pointer addr s)]

/-- R115 (its encoding apart): MOV_PC copies all 16 bits of ACC to PC and changes no other field. -/
def Obligations.MovPcCopiesAcc : Prop :=
  ∀ s : State, ∃ t, exec .movPc s = .next t ∧
    t = { s with pc := s.acc, phase := .fetch0, dout := t.dout, draws := t.draws }

/-- R116 (its encoding apart): MOV_SP copies all 16 bits of ACC to SP and changes no other field. -/
def Obligations.MovSpCopiesAcc : Prop :=
  ∀ s : State, ∃ t, exec .movSp s = .next t ∧
    t = { s with sp := s.acc, phase := .fetch0, dout := t.dout, draws := t.draws }

/-! ### The engine -/

/-- R67, R76: a halted machine is final, whatever its phase: an invocation changes nothing and emits nothing, and so
does any number of them (decision D6, log 10). -/
def Obligations.HaltedMachineStaysAsItIs : Prop :=
  ∀ s : State, s.halted = true → step s = .next s ∧ emitted s = [] ∧ ∀ k, run k s = .next s

/-- R68: FETCH_0 changes the phase and, as every micro-step may (R17, log 5), DOUT; even a PC out of range is no fault
here (decision D10, log 12). -/
def Obligations.FetchZeroOnlyMovesThePhase : Prop :=
  ∀ s : State, s.halted = false → s.phase = .fetch0 →
    emitted s = [] ∧ ∃ t, step s = .next t ∧ t = { s with phase := .fetch1, dout := t.dout, draws := t.draws }

/-- R69: FETCH_1 reads IR at the old PC and increments PC without a 12-bit mask, so that 0x0FFF becomes 0x1000; with PC
of 4096 or more it is the model-level fault of R36 (decision D3, log 9). -/
def Obligations.FetchOneReadsTheWordAtPc : Prop :=
  ∀ s : State, s.halted = false → s.phase = .fetch1 →
    (s.pc.toNat < 4096 → ∃ t, step s = .next t ∧ t.pc.toNat = s.pc.toNat + 1 ∧
      t = { s with ir := s.mem.read s.pc.toNat, pc := s.pc + 1#16, phase := .decode,
                   din := t.din, dout := t.dout, draws := t.draws }) ∧
    (4096 ≤ s.pc.toNat → step s = .fault (.fetchOutOfRange s.pc))

/-- R70: DECODE copies the whole word to `operand` and goes to the execute phase of the opcode in its top four bits;
DIN, PC and the rest stay. -/
def Obligations.DecodeCopiesTheWordAndDispatches : Prop :=
  ∀ s : State, s.halted = false → s.phase = .decode →
    ∃ t op, step s = .next t ∧ opcodeOf op = s.ir.extractLsb' 12 4 ∧
      t = { s with operand := s.ir, phase := execPhase op, dout := t.dout, draws := t.draws }

/-- R71: in the execute phase of an opcode a running machine does exactly that instruction's work, on the address in
`operand`, which the phase masks: the whole register and its low 12 bits give the same step. -/
def Obligations.ExecutePhaseRunsItsInstruction : Prop :=
  ∀ (s : State) (op : Opcode), s.halted = false → s.phase = execPhase op →
    step s = exec (instrOf op (decodeAddress s.operand)) s ∧
    step s = exec (instrOf op s.operand) s ∧
    wellFormed (instrOf op (decodeAddress s.operand)) = true ∧
    emitted s = execDiags (instrOf op s.operand) s

/-- R66, R73: from FETCH_0 with PC below 4096, the word at PC is an instruction that takes exactly four micro-steps:
three that only fetch and decode it, then its execute phase. -/
def Obligations.FourMicroStepsRunTheInstructionAtPc : Prop :=
  ∀ s : State, s.halted = false → s.phase = .fetch0 → s.pc.toNat < 4096 →
    let word := s.mem.read s.pc.toNat
    ∃ u, run 3 s = .next u ∧
      u = { s with ir := word, operand := word, pc := s.pc + 1#16, phase := execPhase (decode word).opcode,
                   din := u.din, dout := u.dout, draws := u.draws } ∧
      step u = exec (decode word) u ∧
      run 4 s = exec (decode word) u

/-- An instruction placed for the next step is the one it runs, from every state (the model's choice, log 7): the step
is its execute phase, with the word in memory behind PC, in IR and in `operand`. -/
def Obligations.PlacedWordRunsNext : Prop :=
  ∀ (s : State) (w : Nat), w < 65536 →
    let word : Word := BitVec.ofNat 16 w
    let u := s.withFetchWord 16 w
    step u = exec (decode word) u ∧ u.halted = false ∧ u.ir = word ∧ u.operand = word ∧
      (s.pc.toNat < 4096 → u.pc = s.pc + 1#16 ∧ u.mem.read s.pc.toNat = word) ∧
      u.acc = s.acc ∧ u.sp = s.sp ∧ u.z = s.z ∧ u.n = s.n ∧ u.v = s.v ∧ u.c = s.c

/-- R66: the order of phases. A micro-step of a running machine goes from FETCH_0 to FETCH_1 to DECODE to an execute
phase and back to FETCH_0, but for STP_0, which stays and halts. -/
def Obligations.PhasesFollowTheCycle : Prop :=
  ∀ s t : State, s.halted = false → step s = .next t →
    (s.phase = .fetch0 → t.phase = .fetch1) ∧
    (s.phase = .fetch1 → t.phase = .decode) ∧
    (s.phase = .decode → ∃ op, t.phase = execPhase op) ∧
    (∀ op, s.phase = execPhase op → op ≠ .stp → t.phase = .fetch0 ∧ t.halted = false) ∧
    (s.phase = .stp0 → t.phase = .stp0 ∧ t.halted = true)

/-! ### Invariants -/

/-- Every micro-step keeps the memory in its canonical form, so no word is ever put outside 0x000 to 0xFFF (R21, R30).
The form itself (rising addresses, no cell that holds what an unlisted address reads as) is the model's choice, log 1. -/
def Obligations.StepKeepsMemoryCanonical : Prop :=
  ∀ s t : State, s.mem.wf → step s = .next t → t.mem.wf

/-- Every micro-step keeps the engine in step with its instruction registers: `operand` is IR outside DECODE, an execute
phase is that of IR's opcode, and a halted machine is in STP_0 (R15, R70, R71). -/
def Obligations.StepKeepsEngineCoherent : Prop :=
  ∀ s t : State, coherent s → step s = .next t → coherent t

/-- The initial state meets both invariants, for every memory image (R24, R150). That its memory does so for every image
rests on the model's choices: the canonical form (log 1), and that a pair of address 4096 or more puts nothing (log 20). -/
def Obligations.InitialStateMeetsTheInvariants : Prop :=
  (State.reset.mem.wf ∧ coherent State.reset) ∧
  ∀ image : List (Nat × Word), (State.initial image).mem.wf ∧ coherent (State.initial image)

/-- R26: once Z and N describe ACC they do so for ever: no micro-step of any instruction breaks it. -/
def Obligations.StepKeepsFlagsDescribingAcc : Prop :=
  ∀ s t : State, flagsDescribeAcc s → step s = .next t → flagsDescribeAcc t

/-- R26: any of LDA, ADD, SUB, LDR and POP makes Z and N describe ACC, whatever they were; at reset they do not. -/
def Obligations.AluInstructionsMakeFlagsDescribeAcc : Prop :=
  ¬ flagsDescribeAcc State.reset ∧
  ∀ (i : Instr) (s t : State), i.opcode ∈ [Opcode.lda, .add, .sub, .ldr, .pop] → exec i s = .next t →
    flagsDescribeAcc t

/-! ### Rules of the whole machine -/

/-- R19: `halted` is monotonic: nothing clears it, a halted state no longer changes, and STP_0 alone sets it. Two clauses
are choices, not the source's words: that an invocation of a halted machine is the identity (decision D6, log 10), and
that no unrecognized phase exists, which would halt it too (decision D8, log 14). -/
def Obligations.OnlyStpHaltsAndNothingRestarts : Prop :=
  ∀ s t : State, step s = .next t →
    (s.halted = true → t = s) ∧ (s.halted = false → (t.halted = true ↔ s.phase = .stp0))

/-- R18: V and C are written by ADD_0 and SUB_0 only, Z and N by those, LDA_0, POP_0 and LDR_0 only: no other
micro-step changes a flag. -/
def Obligations.FlagsChangeOnlyInTheirPhases : Prop :=
  ∀ s t : State, step s = .next t →
    (s.phase ∉ [Phase.add0, .sub0] → t.v = s.v ∧ t.c = s.c) ∧
    (s.phase ∉ [Phase.lda0, .add0, .sub0, .pop0, .ldr0] → t.z = s.z ∧ t.n = s.n)

/-- R10, the table's "written by" column for the registers: a micro-step in any other phase leaves the register as it
was (DIN may be written in the phases R16 leaves open too). -/
def Obligations.RegistersChangeOnlyInTheirPhases : Prop :=
  ∀ s t : State, step s = .next t →
    (s.phase ∉ [Phase.lda0, .add0, .sub0, .pop0, .ldr0] → t.acc = s.acc) ∧
    (s.phase ∉ [Phase.fetch1, .jmp0, .jge0, .jne0, .cll0, .ret0, .movPc0] → t.pc = s.pc) ∧
    (s.phase ∉ [Phase.psh0, .pop0, .cll0, .ret0, .movSp0] → t.sp = s.sp) ∧
    (s.phase ≠ .fetch1 → t.ir = s.ir) ∧
    (s.phase ≠ .decode → t.operand = s.operand) ∧
    (s.phase ∉ [Phase.fetch1, .lda0, .add0, .sub0, .pop0, .ret0, .ldr0, .str0] → t.din = s.din)

/-- R10, R37: memory is written in STO_0, STR_0, PSH_0 and CLL_0 only, and there at the one address the phase presents. -/
def Obligations.MemoryChangesOnlyWhereAStorePoints : Prop :=
  ∀ s t : State, step s = .next t →
    (s.phase ∉ [Phase.sto0, .str0, .psh0, .cll0] → t.mem = s.mem) ∧
    (s.phase = .sto0 → ∀ x, x ≠ (ea s.operand).toNat → t.mem.read x = s.mem.read x) ∧
    (s.phase = .str0 → ∀ x, x ≠ (pointer s.operand s).toNat → t.mem.read x = s.mem.read x) ∧
    (s.phase ∈ [Phase.psh0, .cll0] → ∀ x, x ≠ s.sp.toNat → t.mem.read x = s.mem.read x)

/-- R75, R131: a micro-step emits a diagnostic exactly when a running machine is in LDR_0 or STR_0 with a pointer of
4096 or more; it is one event, and it carries the pointer. The fatal internal error is never emitted (R72). Two clauses
are choices, not the source's words: that the event carries the pointer (decision D7, log 11), and that with a closed
phase the fatal error cannot arise (decision D8, log 14). -/
def Obligations.DiagnosticsComeOnlyFromBadPointers : Prop :=
  ∀ s : State,
    emitted s =
      if s.halted = false ∧ (s.phase = .ldr0 ∨ s.phase = .str0) ∧ 4096 ≤ (pointer s.operand s).toNat
      then [.invalidAddress (pointer s.operand s)] else []

/-- R133, R135: a step faults exactly where an unchecked index is 4096 or more, in the six phases that have one, and
carries it (decisions D2 and D3, log 8, log 9); everywhere else it has a next state, and no step is ever refused. -/
def Obligations.StepFaultsExactlyOnUncheckedIndices : Prop :=
  ∀ s : State,
    (∀ f, step s = .fault f ↔ s.halted = false ∧
      ((s.phase = .fetch1 ∧ 4096 ≤ s.pc.toNat ∧ f = .fetchOutOfRange s.pc) ∨
       ((s.phase = .psh0 ∨ s.phase = .cll0) ∧ 4096 ≤ s.sp.toNat ∧ f = .stackOutOfRange s.sp) ∨
       ((s.phase = .pop0 ∨ s.phase = .ret0) ∧ 4096 ≤ (s.sp + 1#16).toNat ∧ f = .stackOutOfRange (s.sp + 1#16)))) ∧
    ((∃ t, step s = .next t) ∨ ∃ f, step s = .fault f)

/-- R18, 90_conflicts.md C6: no instruction reads V or C. Two states that differ in them only take steps that differ in
them only, but for DIN, DOUT and `draws`, of which nothing is said since R16 and R17 may leave them free. -/
def Obligations.CarryAndOverflowAreNeverRead : Prop :=
  ∀ (s : State) (v c : Bool),
    (∀ t, step s = .next t → ∃ v' c' din' dout' draws',
      step { s with v := v, c := c } =
        .next { t with v := v', c := c', din := din', dout := dout', draws := draws' }) ∧
    (∀ f, step s = .fault f → step { s with v := v, c := c } = .fault f)

/-- R16, R17: no micro-step's result depends on what an earlier one left in DIN or DOUT, nor on which free words were
drawn: states that differ in them only take steps that differ in them only. -/
def Obligations.DataLatchesAreNeverRead : Prop :=
  ∀ (s : State) (din dout : Word) (draws : Nat),
    (∀ t, step s = .next t → ∃ din' dout' draws',
      step { s with din := din, dout := dout, draws := draws } =
        .next { t with din := din', dout := dout', draws := draws' }) ∧
    (∀ f, step s = .fault f → step { s with din := din, dout := dout, draws := draws } = .fault f)

/-- R46: a store over the next instruction is seen by the fetch that follows it, with no fence: four micro-steps after
STO_0 begins, the stored word is in IR and being executed. -/
def Obligations.StoreIsSeenByTheNextFetch : Prop :=
  ∀ s : State, s.halted = false → s.phase = .sto0 → s.pc.toNat < 4096 → ea s.operand = s.pc →
    ∃ t, run 4 s = .next t ∧ t.ir = s.acc ∧ t.operand = s.acc ∧ t.pc = s.pc + 1#16 ∧
      t.phase = execPhase (decode s.acc).opcode ∧ step t = exec (decode s.acc) t

/-- R107, R108: a call and the return right after it come back to the instruction after the call, with SP, ACC and the
flags as they were, for every SP below 4096. -/
def Obligations.RetAfterCllComesBack : Prop :=
  ∀ (s : State) (addr : Word), s.sp.toNat < 4096 →
    ∃ t u, exec (.cll addr) s = .next t ∧ t.pc = ea addr ∧ exec .ret t = .next u ∧
      u = { s with mem := t.mem, phase := .fetch0, din := u.din, dout := u.dout, draws := u.draws }

/-- R24: every field at reset, memory reading 0x0000 throughout (decision D12, log 3). -/
def Obligations.ResetLeavesTheStatedValues : Prop :=
  State.reset.acc = 0x0000#16 ∧ State.reset.pc = 0x0000#16 ∧ State.reset.sp = 0x00FF#16 ∧ State.reset.ir = 0x0000#16 ∧
  State.reset.operand = 0x0000#16 ∧ State.reset.din = 0x0000#16 ∧ State.reset.dout = 0x0000#16 ∧
  State.reset.z = false ∧ State.reset.n = false ∧ State.reset.v = false ∧ State.reset.c = false ∧
  State.reset.halted = false ∧ State.reset.phase = .fetch0 ∧ ∀ a, State.reset.mem.read a = 0x0000#16
end

