-- ==== Sys2Proof/Laws/Encoding.lean ====
section
/-! SUPPORT. The laws of the opcode table and of the two fields of the instruction word (30_encoding.md R51 to R60). -/

namespace Sys2Proof

/-! ### The opcode table is a bijection -/

@[simp] theorem opcodeAt_opcodeOf (op : Opcode) : opcodeAt (opcodeOf op) = op := by
  cases op <;> decide

@[simp] theorem opcodeOf_opcodeAt (number : BitVec 4) : opcodeOf (opcodeAt number) = number := by
  revert number
  decide

theorem opcodeOf_injective (op op' : Opcode) (h : opcodeOf op = opcodeOf op') : op = op' := by
  rw [← opcodeAt_opcodeOf op, h, opcodeAt_opcodeOf]

/-! ### The address field -/

/-- The mask with 0x0FFF is the remainder mod 4096. -/
theorem decodeAddress_toNat (word : Word) : (decodeAddress word).toNat = word.toNat % 4096 := by
  rw [decodeAddress, BitVec.toNat_and]
  exact Nat.and_two_pow_sub_one_eq_mod word.toNat 12

theorem decodeAddress_lt (word : Word) : (decodeAddress word).toNat < 4096 := by
  rw [decodeAddress_toNat]
  exact Nat.mod_lt _ (by decide)

/-- An address below 4096 is its own low 12 bits. -/
theorem decodeAddress_of_lt (addr : Word) (h : addr.toNat < 4096) : decodeAddress addr = addr := by
  apply BitVec.eq_of_toNat_eq
  rw [decodeAddress_toNat, Nat.mod_eq_of_lt h]

@[simp] theorem decodeAddress_idem (word : Word) : decodeAddress (decodeAddress word) = decodeAddress word :=
  decodeAddress_of_lt _ (decodeAddress_lt word)

theorem addressFits_iff (addr : Word) : addressFits addr = true ↔ addr.toNat < 4096 := by
  simp [addressFits]

/-! ### The fields of an encoded word -/

theorem encodeNoAddress_getLsbD (op : Opcode) (k : Nat) :
    (encodeNoAddress op).getLsbD k = (decide (12 ≤ k) && (opcodeOf op).getLsbD (k - 12)) := by
  rcases Nat.lt_or_ge k 16 with hk | hk
  · rcases Nat.lt_or_ge k 12 with h | h
    · simp [encodeNoAddress, BitVec.getLsbD_shiftLeft, h, Nat.not_le_of_lt h]
    · simp [encodeNoAddress, h, hk, Nat.not_lt_of_le h]
  · simp [BitVec.getLsbD_of_ge _ _ hk]
    intro _
    exact BitVec.getLsbD_of_ge _ _ (by omega)

/-- The bits of the mask 0x0FFF, as simp writes it. -/
theorem mask_getLsbD (k : Nat) : (4095#16).getLsbD k = decide (k < 12) := by
  rcases Nat.lt_or_ge k 16 with hk | hk
  · revert k
    decide
  · rw [BitVec.getLsbD_of_ge _ _ hk]
    simp
    omega

@[simp] theorem opcodeField_encodeAddress (op : Opcode) (addr : Word) :
    opcodeField (encodeAddress op addr) = opcodeOf op := by
  apply BitVec.eq_of_getLsbD_eq
  intro k hk
  simp [opcodeField, encodeAddress, encodeNoAddress_getLsbD, mask_getLsbD, hk]

@[simp] theorem opcodeField_encodeNoAddress (op : Opcode) : opcodeField (encodeNoAddress op) = opcodeOf op := by
  apply BitVec.eq_of_getLsbD_eq
  intro k hk
  simp [opcodeField, encodeNoAddress_getLsbD, hk]

@[simp] theorem decodeAddress_encodeAddress (op : Opcode) (addr : Word) :
    decodeAddress (encodeAddress op addr) = decodeAddress addr := by
  apply BitVec.eq_of_getLsbD_eq
  intro k _
  simp only [decodeAddress, encodeAddress, BitVec.getLsbD_and, BitVec.getLsbD_or, encodeNoAddress_getLsbD, mask_getLsbD]
  rcases Nat.lt_or_ge k 12 with h | h
  · simp [h]
  · simp [Nat.not_lt_of_le h]

/-- A word is its two fields put together (R51). -/
theorem encodeAddress_fields (word : Word) :
    encodeAddress (opcodeAt (opcodeField word)) word = word := by
  apply BitVec.eq_of_getLsbD_eq
  intro k hk
  simp only [encodeAddress, BitVec.getLsbD_or, BitVec.getLsbD_and, encodeNoAddress_getLsbD, mask_getLsbD,
    opcodeOf_opcodeAt]
  rcases Nat.lt_or_ge k 12 with h | h
  · simp [h, Nat.not_le_of_lt h]
  · simp only [h, Nat.not_lt_of_le h, decide_true, decide_false, Bool.true_and, Bool.and_false, Bool.or_false, opcodeField,
      BitVec.getLsbD_extractLsb']
    rw [show 12 + (k - 12) = k from by omega]
    simp
    omega

/-- The mask 0xF000 leaves the opcode field in place (R60). -/
theorem and_opcodeMask (word : Word) : word &&& 0xF000#16 = (opcodeField word).setWidth 16 <<< 12 := by
  apply BitVec.eq_of_getLsbD_eq
  intro k hk
  have hmask : (0xF000#16).getLsbD k = decide (12 ≤ k) := by
    revert k
    decide
  rcases Nat.lt_or_ge k 12 with h | h
  · simp only [BitVec.getLsbD_and, hmask, BitVec.getLsbD_shiftLeft, h, Nat.not_le_of_lt h, decide_false, decide_true,
      Bool.and_false, Bool.not_true, Bool.false_and]
  · simp only [BitVec.getLsbD_and, hmask, BitVec.getLsbD_shiftLeft, BitVec.getLsbD_setWidth, opcodeField,
      BitVec.getLsbD_extractLsb', h, Nat.not_lt_of_le h, hk, decide_true, decide_false, Bool.and_true, Bool.not_false,
      Bool.true_and]
    have h16 : k - 12 < 16 := by omega
    have h4 : k - 12 < 4 := by omega
    simp [h16, h4, show 12 + (k - 12) = k from by omega]

@[simp] theorem instrOf_opcode (op : Opcode) (addr : Word) : (instrOf op addr).opcode = op := by
  cases op <;> rfl

end Sys2Proof
end

