-- ==== Sys2Proof/Laws/Memory.lean ====
section
/-! SUPPORT. The laws of the memory: what a read gives after a write (20_memory.md R43), and that every operation keeps
the canonical form. -/

namespace Sys2Proof.Machine

/-! ### Reads -/

@[simp] theorem Memory.read_nil (a : Nat) : Memory.read [] a = Memory.unlisted := rfl

theorem Memory.read_cons (b : Nat) (w : Word) (m : Memory) (a : Nat) :
    Memory.read ((b, w) :: m) a = if b = a then w else m.read a := rfl

theorem Memory.read_erase (m : Memory) (a x : Nat) :
    (m.erase a).read x = if x = a then Memory.unlisted else m.read x := by
  induction m with
  | nil => simp [Memory.erase]
  | cons cell m ih =>
    obtain ⟨b, w⟩ := cell
    by_cases hb : b = a
    · subst hb
      rw [Memory.erase, if_pos rfl, ih]
      by_cases hx : x = b
      · simp [hx]
      · simp [hx, Memory.read_cons, Ne.symm hx]
    · by_cases hx : x = a
      · subst hx
        simp [Memory.erase, hb, Memory.read_cons, ih]
      · simp [Memory.erase, hb, Memory.read_cons, ih, hx]

theorem Memory.read_insert_other (m : Memory) (a x : Nat) (v : Word) (hx : x ≠ a) :
    (m.insert a v).read x = m.read x := by
  induction m with
  | nil => simp [Memory.insert, Memory.read_cons, Ne.symm hx]
  | cons cell m ih =>
    obtain ⟨b, w⟩ := cell
    by_cases hab : a < b
    · simp [Memory.insert, hab, Memory.read_cons, Ne.symm hx]
    · simp [Memory.insert, hab, Memory.read_cons, ih]

/-- Before the insertion nothing is listed at `a`, and then the inserted word is what `a` reads as. -/
theorem Memory.read_insert_erase_self (m : Memory) (a : Nat) (v : Word) :
    ((m.erase a).insert a v).read a = v := by
  induction m with
  | nil => simp [Memory.erase, Memory.insert, Memory.read_cons]
  | cons cell m ih =>
    obtain ⟨b, w⟩ := cell
    by_cases hb : b = a
    · simpa [Memory.erase, hb] using ih
    · by_cases hab : a < b
      · simp [Memory.erase, hb, Memory.insert, hab, Memory.read_cons]
      · simp [Memory.erase, hb, Memory.insert, hab, Memory.read_cons, ih]

/-- A read after a write, at the same address or another, of any memory. -/
theorem Memory.read_write (m : Memory) (a x : Nat) (v : Word) :
    (m.write a v).read x = if x = a then v else m.read x := by
  unfold Memory.write
  by_cases hv : v = Memory.unlisted
  · rw [if_pos hv, Memory.read_erase, hv]
  · rw [if_neg hv]
    by_cases hx : x = a
    · rw [if_pos hx, hx, Memory.read_insert_erase_self]
    · rw [if_neg hx, Memory.read_insert_other _ _ _ _ hx, Memory.read_erase, if_neg hx]

@[simp] theorem Memory.read_write_self (m : Memory) (a : Nat) (v : Word) : (m.write a v).read a = v := by
  simp [Memory.read_write]

theorem Memory.read_write_other (m : Memory) (a x : Nat) (v : Word) (hx : x ≠ a) :
    (m.write a v).read x = m.read x := by
  simp [Memory.read_write, hx]

/-! ### The canonical form -/

theorem Memory.mem_erase (m : Memory) (a : Nat) (x : Nat × Word) :
    x ∈ m.erase a ↔ x ∈ m ∧ x.1 ≠ a := by
  induction m with
  | nil => simp [Memory.erase]
  | cons cell m ih =>
    obtain ⟨b, w⟩ := cell
    by_cases hb : b = a
    · simp only [Memory.erase, hb, if_true, ih, List.mem_cons]
      constructor
      · rintro ⟨hm, hne⟩; exact ⟨.inr hm, hne⟩
      · rintro ⟨rfl | hm, hne⟩
        · exact absurd rfl hne
        · exact ⟨hm, hne⟩
    · simp only [Memory.erase, hb, if_false, List.mem_cons, ih]
      constructor
      · rintro (rfl | ⟨hm, hne⟩)
        · exact ⟨.inl rfl, hb⟩
        · exact ⟨.inr hm, hne⟩
      · rintro ⟨rfl | hm, hne⟩
        · exact .inl rfl
        · exact .inr ⟨hm, hne⟩

theorem Memory.mem_insert (m : Memory) (a : Nat) (v : Word) (x : Nat × Word) :
    x ∈ m.insert a v ↔ x = (a, v) ∨ x ∈ m := by
  induction m with
  | nil => simp [Memory.insert]
  | cons cell m ih =>
    obtain ⟨b, w⟩ := cell
    by_cases hab : a < b
    · simp [Memory.insert, hab]
    · simp only [Memory.insert, hab, if_false, List.mem_cons, ih]
      tauto

theorem Memory.wf_nil : Memory.wf [] := by simp [Memory.wf]

theorem Memory.wf_erase (m : Memory) (a : Nat) (h : m.wf) : (m.erase a).wf := by
  refine ⟨?_, fun x hx => h.2 x ((Memory.mem_erase m a x).1 hx).1⟩
  have hp := h.1
  clear h
  induction m with
  | nil => exact hp
  | cons cell m ih =>
    obtain ⟨b, w⟩ := cell
    obtain ⟨hhead, htail⟩ := List.pairwise_cons.1 hp
    by_cases hb : b = a
    · simpa [Memory.erase, hb] using ih htail
    · simp only [Memory.erase, hb, if_false]
      exact List.pairwise_cons.2 ⟨fun x hx => hhead x ((Memory.mem_erase m a x).1 hx).1, ih htail⟩

/-- Inserting at an address that is not listed keeps the addresses strictly rising. -/
theorem Memory.pairwise_insert (m : Memory) (a : Nat) (v : Word)
    (hp : m.Pairwise (fun x y => x.1 < y.1)) (hnew : ∀ x ∈ m, x.1 ≠ a) :
    (m.insert a v).Pairwise (fun x y => x.1 < y.1) := by
  induction m with
  | nil => simp [Memory.insert]
  | cons cell m ih =>
    obtain ⟨b, w⟩ := cell
    obtain ⟨hhead, htail⟩ := List.pairwise_cons.1 hp
    by_cases hab : a < b
    · simp only [Memory.insert, hab, if_true]
      refine List.pairwise_cons.2 ⟨fun x hx => ?_, hp⟩
      rcases List.mem_cons.1 hx with rfl | hm
      · exact hab
      · exact Nat.lt_trans hab (hhead x hm)
    · simp only [Memory.insert, hab, if_false]
      refine List.pairwise_cons.2 ⟨fun x hx => ?_, ih htail fun x hx => hnew x (.tail _ hx)⟩
      rcases (Memory.mem_insert m a v x).1 hx with rfl | hm
      · have : b ≠ a := hnew (b, w) (.head _)
        show b < a
        omega
      · exact hhead x hm

/-- Every write at an address of the memory keeps the canonical form. -/
theorem Memory.wf_write (m : Memory) (a : Nat) (v : Word) (h : m.wf) (ha : a < Config.memWords) :
    (m.write a v).wf := by
  have herase := Memory.wf_erase m a h
  unfold Memory.write
  split
  · exact herase
  · refine ⟨Memory.pairwise_insert _ a v herase.1 fun x hx => ((Memory.mem_erase m a x).1 hx).2, ?_⟩
    intro x hx
    rcases (Memory.mem_insert _ a v x).1 hx with rfl | hm
    · exact ⟨ha, by assumption⟩
    · exact herase.2 x hm

theorem Memory.wf_ofImage (image : List (Nat × Word)) : (Memory.ofImage image).wf := by
  suffices h : ∀ m : Memory, m.wf →
      (image.foldl (fun m x => if x.1 < Config.memWords then m.write x.1 x.2 else m) m).wf from
    h [] Memory.wf_nil
  induction image with
  | nil => exact fun m hm => hm
  | cons x image ih =>
    intro m hm
    refine ih _ ?_
    dsimp only
    split
    · exact Memory.wf_write m _ _ hm (by assumption)
    · exact hm

theorem reset_mem_wf : State.reset.mem.wf := Memory.wf_nil

/-- Below the first listed address nothing is listed. -/
theorem Memory.read_below (m : Memory) (a : Nat) (h : ∀ x ∈ m, a < x.1) : m.read a = Memory.unlisted := by
  induction m with
  | nil => rfl
  | cons cell m ih =>
    obtain ⟨b, w⟩ := cell
    have hb : a < b := h (b, w) (.head _)
    rw [Memory.read_cons, if_neg (by omega), ih fun x hx => h x (.tail _ hx)]

end Sys2Proof.Machine
end

