-- ==== Sys2Proof/Laws/State.lean ====
section
/-! SUPPORT. One lemma per field per named update of the state, each true by rfl: no later proof unfolds an update. -/

namespace Sys2Proof.Machine

/-! ### drawDin -/

@[simp] theorem drawDin_acc (s : State) : (drawDin s).acc = s.acc := rfl
@[simp] theorem drawDin_pc (s : State) : (drawDin s).pc = s.pc := rfl
@[simp] theorem drawDin_sp (s : State) : (drawDin s).sp = s.sp := rfl
@[simp] theorem drawDin_ir (s : State) : (drawDin s).ir = s.ir := rfl
@[simp] theorem drawDin_operand (s : State) : (drawDin s).operand = s.operand := rfl
@[simp] theorem drawDin_din (s : State) : (drawDin s).din = Config.freeWord s.draws := rfl
@[simp] theorem drawDin_dout (s : State) : (drawDin s).dout = s.dout := rfl
@[simp] theorem drawDin_z (s : State) : (drawDin s).z = s.z := rfl
@[simp] theorem drawDin_n (s : State) : (drawDin s).n = s.n := rfl
@[simp] theorem drawDin_v (s : State) : (drawDin s).v = s.v := rfl
@[simp] theorem drawDin_c (s : State) : (drawDin s).c = s.c := rfl
@[simp] theorem drawDin_halted (s : State) : (drawDin s).halted = s.halted := rfl
@[simp] theorem drawDin_phase (s : State) : (drawDin s).phase = s.phase := rfl
@[simp] theorem drawDin_mem (s : State) : (drawDin s).mem = s.mem := rfl
@[simp] theorem drawDin_draws (s : State) : (drawDin s).draws = s.draws + 1 := rfl

/-! ### drawDout -/

@[simp] theorem drawDout_acc (s : State) : (drawDout s).acc = s.acc := rfl
@[simp] theorem drawDout_pc (s : State) : (drawDout s).pc = s.pc := rfl
@[simp] theorem drawDout_sp (s : State) : (drawDout s).sp = s.sp := rfl
@[simp] theorem drawDout_ir (s : State) : (drawDout s).ir = s.ir := rfl
@[simp] theorem drawDout_operand (s : State) : (drawDout s).operand = s.operand := rfl
@[simp] theorem drawDout_din (s : State) : (drawDout s).din = s.din := rfl
@[simp] theorem drawDout_dout (s : State) : (drawDout s).dout = Config.freeWord s.draws := rfl
@[simp] theorem drawDout_z (s : State) : (drawDout s).z = s.z := rfl
@[simp] theorem drawDout_n (s : State) : (drawDout s).n = s.n := rfl
@[simp] theorem drawDout_v (s : State) : (drawDout s).v = s.v := rfl
@[simp] theorem drawDout_c (s : State) : (drawDout s).c = s.c := rfl
@[simp] theorem drawDout_halted (s : State) : (drawDout s).halted = s.halted := rfl
@[simp] theorem drawDout_phase (s : State) : (drawDout s).phase = s.phase := rfl
@[simp] theorem drawDout_mem (s : State) : (drawDout s).mem = s.mem := rfl
@[simp] theorem drawDout_draws (s : State) : (drawDout s).draws = s.draws + 1 := rfl

/-! ### handBack -/

@[simp] theorem handBack_acc (s : State) : (handBack s).acc = s.acc := rfl
@[simp] theorem handBack_pc (s : State) : (handBack s).pc = s.pc := rfl
@[simp] theorem handBack_sp (s : State) : (handBack s).sp = s.sp := rfl
@[simp] theorem handBack_ir (s : State) : (handBack s).ir = s.ir := rfl
@[simp] theorem handBack_operand (s : State) : (handBack s).operand = s.operand := rfl
@[simp] theorem handBack_din (s : State) : (handBack s).din = s.din := rfl
@[simp] theorem handBack_dout (s : State) : (handBack s).dout = Config.freeWord s.draws := rfl
@[simp] theorem handBack_z (s : State) : (handBack s).z = s.z := rfl
@[simp] theorem handBack_n (s : State) : (handBack s).n = s.n := rfl
@[simp] theorem handBack_v (s : State) : (handBack s).v = s.v := rfl
@[simp] theorem handBack_c (s : State) : (handBack s).c = s.c := rfl
@[simp] theorem handBack_halted (s : State) : (handBack s).halted = s.halted := rfl
@[simp] theorem handBack_phase (s : State) : (handBack s).phase = .fetch0 := rfl
@[simp] theorem handBack_mem (s : State) : (handBack s).mem = s.mem := rfl
@[simp] theorem handBack_draws (s : State) : (handBack s).draws = s.draws + 1 := rfl

/-! ### memWrite -/

@[simp] theorem memWrite_acc (a w : Word) (s : State) : (memWrite a w s).acc = s.acc := rfl
@[simp] theorem memWrite_pc (a w : Word) (s : State) : (memWrite a w s).pc = s.pc := rfl
@[simp] theorem memWrite_sp (a w : Word) (s : State) : (memWrite a w s).sp = s.sp := rfl
@[simp] theorem memWrite_ir (a w : Word) (s : State) : (memWrite a w s).ir = s.ir := rfl
@[simp] theorem memWrite_operand (a w : Word) (s : State) : (memWrite a w s).operand = s.operand := rfl
@[simp] theorem memWrite_din (a w : Word) (s : State) : (memWrite a w s).din = s.din := rfl
@[simp] theorem memWrite_dout (a w : Word) (s : State) : (memWrite a w s).dout = s.dout := rfl
@[simp] theorem memWrite_z (a w : Word) (s : State) : (memWrite a w s).z = s.z := rfl
@[simp] theorem memWrite_n (a w : Word) (s : State) : (memWrite a w s).n = s.n := rfl
@[simp] theorem memWrite_v (a w : Word) (s : State) : (memWrite a w s).v = s.v := rfl
@[simp] theorem memWrite_c (a w : Word) (s : State) : (memWrite a w s).c = s.c := rfl
@[simp] theorem memWrite_halted (a w : Word) (s : State) : (memWrite a w s).halted = s.halted := rfl
@[simp] theorem memWrite_phase (a w : Word) (s : State) : (memWrite a w s).phase = s.phase := rfl
@[simp] theorem memWrite_mem (a w : Word) (s : State) : (memWrite a w s).mem = s.mem.write a.toNat w := rfl
@[simp] theorem memWrite_draws (a w : Word) (s : State) : (memWrite a w s).draws = s.draws := rfl

/-! ### aluAdd -/

@[simp] theorem aluAdd_acc (b : Word) (s : State) : (aluAdd b s).acc = s.acc + b := rfl
@[simp] theorem aluAdd_pc (b : Word) (s : State) : (aluAdd b s).pc = s.pc := rfl
@[simp] theorem aluAdd_sp (b : Word) (s : State) : (aluAdd b s).sp = s.sp := rfl
@[simp] theorem aluAdd_ir (b : Word) (s : State) : (aluAdd b s).ir = s.ir := rfl
@[simp] theorem aluAdd_operand (b : Word) (s : State) : (aluAdd b s).operand = s.operand := rfl
@[simp] theorem aluAdd_din (b : Word) (s : State) : (aluAdd b s).din = s.din := rfl
@[simp] theorem aluAdd_dout (b : Word) (s : State) : (aluAdd b s).dout = s.dout := rfl
@[simp] theorem aluAdd_z (b : Word) (s : State) : (aluAdd b s).z = isZero (s.acc + b) := rfl
@[simp] theorem aluAdd_n (b : Word) (s : State) : (aluAdd b s).n = isNegative (s.acc + b) := rfl
@[simp] theorem aluAdd_v (b : Word) (s : State) : (aluAdd b s).v = addOverflow s.acc b (s.acc + b) := rfl
@[simp] theorem aluAdd_c (b : Word) (s : State) : (aluAdd b s).c = addCarry b (s.acc + b) := rfl
@[simp] theorem aluAdd_halted (b : Word) (s : State) : (aluAdd b s).halted = s.halted := rfl
@[simp] theorem aluAdd_phase (b : Word) (s : State) : (aluAdd b s).phase = s.phase := rfl
@[simp] theorem aluAdd_mem (b : Word) (s : State) : (aluAdd b s).mem = s.mem := rfl
@[simp] theorem aluAdd_draws (b : Word) (s : State) : (aluAdd b s).draws = s.draws := rfl

/-! ### aluSub -/

@[simp] theorem aluSub_acc (b : Word) (s : State) : (aluSub b s).acc = s.acc + neg16 b := rfl
@[simp] theorem aluSub_pc (b : Word) (s : State) : (aluSub b s).pc = s.pc := rfl
@[simp] theorem aluSub_sp (b : Word) (s : State) : (aluSub b s).sp = s.sp := rfl
@[simp] theorem aluSub_ir (b : Word) (s : State) : (aluSub b s).ir = s.ir := rfl
@[simp] theorem aluSub_operand (b : Word) (s : State) : (aluSub b s).operand = s.operand := rfl
@[simp] theorem aluSub_din (b : Word) (s : State) : (aluSub b s).din = s.din := rfl
@[simp] theorem aluSub_dout (b : Word) (s : State) : (aluSub b s).dout = s.dout := rfl
@[simp] theorem aluSub_z (b : Word) (s : State) : (aluSub b s).z = isZero (s.acc + neg16 b) := rfl
@[simp] theorem aluSub_n (b : Word) (s : State) : (aluSub b s).n = isNegative (s.acc + neg16 b) := rfl
@[simp] theorem aluSub_v (b : Word) (s : State) : (aluSub b s).v = addOverflow s.acc (neg16 b) (s.acc + neg16 b) := rfl
@[simp] theorem aluSub_c (b : Word) (s : State) : (aluSub b s).c = addCarry (neg16 b) (s.acc + neg16 b) := rfl
@[simp] theorem aluSub_halted (b : Word) (s : State) : (aluSub b s).halted = s.halted := rfl
@[simp] theorem aluSub_phase (b : Word) (s : State) : (aluSub b s).phase = s.phase := rfl
@[simp] theorem aluSub_mem (b : Word) (s : State) : (aluSub b s).mem = s.mem := rfl
@[simp] theorem aluSub_draws (b : Word) (s : State) : (aluSub b s).draws = s.draws := rfl

/-! ### aluLoad -/

@[simp] theorem aluLoad_acc (w : Word) (s : State) : (aluLoad w s).acc = w := rfl
@[simp] theorem aluLoad_pc (w : Word) (s : State) : (aluLoad w s).pc = s.pc := rfl
@[simp] theorem aluLoad_sp (w : Word) (s : State) : (aluLoad w s).sp = s.sp := rfl
@[simp] theorem aluLoad_ir (w : Word) (s : State) : (aluLoad w s).ir = s.ir := rfl
@[simp] theorem aluLoad_operand (w : Word) (s : State) : (aluLoad w s).operand = s.operand := rfl
@[simp] theorem aluLoad_din (w : Word) (s : State) : (aluLoad w s).din = s.din := rfl
@[simp] theorem aluLoad_dout (w : Word) (s : State) : (aluLoad w s).dout = s.dout := rfl
@[simp] theorem aluLoad_z (w : Word) (s : State) : (aluLoad w s).z = isZero w := rfl
@[simp] theorem aluLoad_n (w : Word) (s : State) : (aluLoad w s).n = isNegative w := rfl
@[simp] theorem aluLoad_v (w : Word) (s : State) : (aluLoad w s).v = s.v := rfl
@[simp] theorem aluLoad_c (w : Word) (s : State) : (aluLoad w s).c = s.c := rfl
@[simp] theorem aluLoad_halted (w : Word) (s : State) : (aluLoad w s).halted = s.halted := rfl
@[simp] theorem aluLoad_phase (w : Word) (s : State) : (aluLoad w s).phase = s.phase := rfl
@[simp] theorem aluLoad_mem (w : Word) (s : State) : (aluLoad w s).mem = s.mem := rfl
@[simp] theorem aluLoad_draws (w : Word) (s : State) : (aluLoad w s).draws = s.draws := rfl

/-! ### fetch0 -/

@[simp] theorem fetch0_acc (s : State) : (fetch0 s).acc = s.acc := rfl
@[simp] theorem fetch0_pc (s : State) : (fetch0 s).pc = s.pc := rfl
@[simp] theorem fetch0_sp (s : State) : (fetch0 s).sp = s.sp := rfl
@[simp] theorem fetch0_ir (s : State) : (fetch0 s).ir = s.ir := rfl
@[simp] theorem fetch0_operand (s : State) : (fetch0 s).operand = s.operand := rfl
@[simp] theorem fetch0_din (s : State) : (fetch0 s).din = s.din := rfl
@[simp] theorem fetch0_dout (s : State) : (fetch0 s).dout = Config.freeWord s.draws := rfl
@[simp] theorem fetch0_z (s : State) : (fetch0 s).z = s.z := rfl
@[simp] theorem fetch0_n (s : State) : (fetch0 s).n = s.n := rfl
@[simp] theorem fetch0_v (s : State) : (fetch0 s).v = s.v := rfl
@[simp] theorem fetch0_c (s : State) : (fetch0 s).c = s.c := rfl
@[simp] theorem fetch0_halted (s : State) : (fetch0 s).halted = s.halted := rfl
@[simp] theorem fetch0_phase (s : State) : (fetch0 s).phase = .fetch1 := rfl
@[simp] theorem fetch0_mem (s : State) : (fetch0 s).mem = s.mem := rfl
@[simp] theorem fetch0_draws (s : State) : (fetch0 s).draws = s.draws + 1 := rfl

/-! ### decodeStep -/

@[simp] theorem decodeStep_acc (s : State) : (decodeStep s).acc = s.acc := rfl
@[simp] theorem decodeStep_pc (s : State) : (decodeStep s).pc = s.pc := rfl
@[simp] theorem decodeStep_sp (s : State) : (decodeStep s).sp = s.sp := rfl
@[simp] theorem decodeStep_ir (s : State) : (decodeStep s).ir = s.ir := rfl
@[simp] theorem decodeStep_operand (s : State) : (decodeStep s).operand = s.ir := rfl
@[simp] theorem decodeStep_din (s : State) : (decodeStep s).din = s.din := rfl
@[simp] theorem decodeStep_dout (s : State) : (decodeStep s).dout = Config.freeWord s.draws := rfl
@[simp] theorem decodeStep_z (s : State) : (decodeStep s).z = s.z := rfl
@[simp] theorem decodeStep_n (s : State) : (decodeStep s).n = s.n := rfl
@[simp] theorem decodeStep_v (s : State) : (decodeStep s).v = s.v := rfl
@[simp] theorem decodeStep_c (s : State) : (decodeStep s).c = s.c := rfl
@[simp] theorem decodeStep_halted (s : State) : (decodeStep s).halted = s.halted := rfl
@[simp] theorem decodeStep_phase (s : State) : (decodeStep s).phase = execPhase (opcodeAt (opcodeField s.ir)) := rfl
@[simp] theorem decodeStep_mem (s : State) : (decodeStep s).mem = s.mem := rfl
@[simp] theorem decodeStep_draws (s : State) : (decodeStep s).draws = s.draws + 1 := rfl

end Sys2Proof.Machine
end

