-- ==== Sys2Proof/Laws/Ops.lean ====
section
/-! SUPPORT. One lemma per shared operation: everything it can do. The provers cite these instead of unfolding. -/

namespace Sys2Proof.Machine

theorem inRange_iff (a : Word) : inRange a = true ↔ a.toNat < 4096 := by simp [inRange]

theorem inRange_false_iff (a : Word) : inRange a = false ↔ 4096 ≤ a.toNat := by simp [inRange]

/-- A 12-bit address is always in range (20_memory.md R37). -/
@[simp] theorem inRange_ea (operand : Word) : inRange (ea operand) = true := by
  rw [inRange_iff, ea, BitVec.toNat_and]
  exact Nat.lt_of_le_of_lt Nat.and_le_right (by decide)

theorem ea_lt (operand : Word) : (ea operand).toNat < 4096 := (inRange_iff _).1 (inRange_ea operand)

/-! ### Accessors -/

theorem lookup_of_inRange (a : Word) (s : State) (h : inRange a = true) :
    lookup a s = ({ s with din := s.mem.read a.toNat }, []) := by
  simp [lookup, h, memRead]

theorem lookup_of_outOfRange (a : Word) (s : State) (h : inRange a = false) :
    lookup a s = ({ s with din := 0x0000#16 }, [.invalidAddress a]) := by
  simp [lookup, h]

/-- What Lookup does to the state: DIN, and nothing else. -/
theorem lookup_state (a : Word) (s : State) :
    (lookup a s).1 = { s with din := if inRange a then s.mem.read a.toNat else 0x0000#16 } := by
  unfold lookup
  split <;> rfl

theorem lookup_events (a : Word) (s : State) :
    (lookup a s).2 = if inRange a then [] else [.invalidAddress a] := by
  unfold lookup
  split <;> rfl

theorem store_of_inRange (a v : Word) (s : State) (h : inRange a = true) : store a v s = (memWrite a v s, []) := by
  simp [store, h]

theorem store_of_outOfRange (a v : Word) (s : State) (h : inRange a = false) :
    store a v s = (s, [.invalidAddress a]) := by
  simp [store, h]

/-- What Store does to the state: the memory, and nothing else. -/
theorem store_state (a v : Word) (s : State) :
    (store a v s).1 = { s with mem := if inRange a then s.mem.write a.toNat v else s.mem } := by
  unfold store
  split <;> rfl

theorem store_events (a v : Word) (s : State) :
    (store a v s).2 = if inRange a then [] else [.invalidAddress a] := by
  unfold store
  split <;> rfl

theorem push_of_inRange (v : Word) (s : State) (h : inRange s.sp = true) :
    push v s = .ok { s with mem := s.mem.write s.sp.toNat v, sp := s.sp - 1#16 } := by
  simp [push, h, memWrite]

theorem push_of_outOfRange (v : Word) (s : State) (h : inRange s.sp = false) :
    push v s = .error (.stackOutOfRange s.sp) := by
  simp [push, h]

theorem pop_of_inRange (s : State) (h : inRange (s.sp + 1#16) = true) :
    pop s = .ok (s.mem.read (s.sp + 1#16).toNat, { s with sp := s.sp + 1#16 }) := by
  rw [pop, if_pos h]
  rfl

theorem pop_of_outOfRange (s : State) (h : inRange (s.sp + 1#16) = false) :
    pop s = .error (.stackOutOfRange (s.sp + 1#16)) := by
  rw [pop, h]
  rfl

theorem push_cases {v : Word} {s : State} {r : Except Fault State} (h : push v s = r) :
    (inRange s.sp = true ∧ r = .ok { s with mem := s.mem.write s.sp.toNat v, sp := s.sp - 1#16 }) ∨
    (inRange s.sp = false ∧ r = .error (.stackOutOfRange s.sp)) := by
  cases hr : inRange s.sp
  · exact .inr ⟨rfl, by rw [← h, push_of_outOfRange v s hr]⟩
  · exact .inl ⟨rfl, by rw [← h, push_of_inRange v s hr]⟩

theorem pop_cases {s : State} {r : Except Fault (Word × State)} (h : pop s = r) :
    (inRange (s.sp + 1#16) = true ∧ r = .ok (s.mem.read (s.sp + 1#16).toNat, { s with sp := s.sp + 1#16 })) ∨
    (inRange (s.sp + 1#16) = false ∧ r = .error (.stackOutOfRange (s.sp + 1#16))) := by
  cases hr : inRange (s.sp + 1#16)
  · exact .inr ⟨rfl, by rw [← h, pop_of_outOfRange s hr]⟩
  · exact .inl ⟨rfl, by rw [← h, pop_of_inRange s hr]⟩

/-! ### Faults in a micro-step -/

@[simp] theorem orFault_ok {α : Type} (x : α) (k : α → State) : orFault (.ok x) k = .next (k x) := rfl

@[simp] theorem orFault_error {α : Type} (f : Fault) (k : α → State) :
    orFault (.error f : Except Fault α) k = .fault f := rfl

theorem orFault_next {α : Type} {r : Except Fault α} {k : α → State} {t : State} (h : orFault r k = .next t) :
    ∃ x, r = .ok x ∧ t = k x := by
  cases r with
  | ok x => exact ⟨x, rfl, (Host.Outcome.next.inj h).symm⟩
  | error f => exact absurd h (by simp)

theorem orFault_fault {α : Type} {r : Except Fault α} {k : α → State} {f : Fault} (h : orFault r k = .fault f) :
    r = .error f := by
  cases r with
  | ok x => exact absurd h (by simp)
  | error f' => exact congrArg _ (Host.Outcome.fault.inj h)

/-! ### The ALU -/

theorem isNegative_iff (w : Word) : isNegative w = true ↔ 32768 ≤ w.toNat := by
  rw [isNegative, show w.getLsbD 15 = w.msb from rfl, BitVec.msb_eq_decide]
  simp

theorem isNegative_eq (w : Word) : isNegative w = decide (32768 ≤ w.toNat) := by
  rw [Bool.eq_iff_iff, isNegative_iff, decide_eq_true_iff]

theorem isZero_iff (w : Word) : isZero w = true ↔ w = 0#16 := by simp [isZero]

theorem isZero_eq (w : Word) : isZero w = decide (w = 0#16) := by
  rw [Bool.eq_iff_iff, isZero_iff, decide_eq_true_iff]

/-- V's rule in bits, as the spec writes it. -/
theorem addOverflow_eq (a b r : Word) :
    addOverflow a b r = decide (a.getLsbD 15 = b.getLsbD 15 ∧ r.getLsbD 15 ≠ a.getLsbD 15) := by
  rw [Bool.eq_iff_iff]
  simp [addOverflow, isNegative]

/-- V's rule in unsigned values, for arithmetic. -/
theorem addOverflow_eq_toNat (a b r : Word) :
    addOverflow a b r =
      decide ((32768 ≤ a.toNat ↔ 32768 ≤ b.toNat) ∧ ¬ (32768 ≤ r.toNat ↔ 32768 ≤ a.toNat)) := by
  simp only [← isNegative_iff]
  cases ha : isNegative a <;> cases hb : isNegative b <;> cases hr : isNegative r <;>
    simp [addOverflow, ha, hb, hr]

theorem addCarry_iff (b r : Word) : addCarry b r = true ↔ r.toNat < b.toNat := by simp [addCarry]

theorem neg16_eq_neg (b : Word) : neg16 b = -b := (BitVec.neg_eq_not_add b).symm

/-- Subtraction is the addition of the negation. -/
theorem add_neg16 (a b : Word) : a + neg16 b = a - b := by
  rw [neg16_eq_neg, BitVec.sub_eq_add_neg]

theorem neg16_toNat (b : Word) : (neg16 b).toNat = (65536 - b.toNat) % 65536 := by
  rw [neg16_eq_neg, BitVec.toNat_neg]

end Sys2Proof.Machine
end

