-- ==== Sys2Proof/Laws/Exec.lean ====
section
/-! SUPPORT. What each instruction's execute phase answers, in one equation each (or two, where it can fault), and what
any of them can do to the memory. -/

namespace Sys2Proof.Machine

theorem exec_lda (addr : Word) (s : State) :
    exec (.lda addr) s = .next (handBack (aluLoad (s.mem.read (ea addr).toNat)
      { s with din := s.mem.read (ea addr).toNat })) := by
  simp [exec, execLda, lookup_state]

theorem exec_sto (addr : Word) (s : State) :
    exec (.sto addr) s = .next (handBack { s with mem := s.mem.write (ea addr).toNat s.acc }) := by
  simp [exec, execSto, store_state]

theorem exec_add (addr : Word) (s : State) :
    exec (.add addr) s = .next (handBack (drawDin (aluAdd (s.mem.read (ea addr).toNat) s))) := rfl

theorem exec_sub (addr : Word) (s : State) :
    exec (.sub addr) s = .next (handBack (drawDin (aluSub (s.mem.read (ea addr).toNat) s))) := rfl

theorem exec_jmp (addr : Word) (s : State) : exec (.jmp addr) s = .next (handBack { s with pc := ea addr }) := rfl

theorem exec_jge (addr : Word) (s : State) :
    exec (.jge addr) s = .next (handBack { s with pc := if s.n then s.pc else ea addr }) := rfl

theorem exec_jne (addr : Word) (s : State) :
    exec (.jne addr) s = .next (handBack { s with pc := if s.z then s.pc else ea addr }) := rfl

theorem exec_stp (s : State) : exec .stp s = .next { drawDout s with halted := true } := rfl

theorem exec_cll (addr : Word) (s : State) (h : inRange s.sp = true) :
    exec (.cll addr) s =
      .next (handBack { s with mem := s.mem.write s.sp.toNat s.pc, sp := s.sp - 1#16, pc := ea addr }) := by
  simp [exec, execCll, push_of_inRange _ s h]

theorem exec_cll_fault (addr : Word) (s : State) (h : inRange s.sp = false) :
    exec (.cll addr) s = .fault (.stackOutOfRange s.sp) := by
  simp [exec, execCll, push_of_outOfRange _ s h]

theorem exec_ret (s : State) (h : inRange (s.sp + 1#16) = true) :
    exec .ret s = .next (handBack (drawDin { s with sp := s.sp + 1#16, pc := s.mem.read (s.sp + 1#16).toNat })) := by
  simp [exec, execRet, pop_of_inRange s h]

theorem exec_ret_fault (s : State) (h : inRange (s.sp + 1#16) = false) :
    exec .ret s = .fault (.stackOutOfRange (s.sp + 1#16)) := by
  simp [exec, execRet, pop_of_outOfRange s h]

theorem exec_psh (s : State) (h : inRange s.sp = true) :
    exec .psh s = .next (handBack { s with mem := s.mem.write s.sp.toNat s.acc, sp := s.sp - 1#16 }) := by
  simp [exec, execPsh, push_of_inRange _ s h]

theorem exec_psh_fault (s : State) (h : inRange s.sp = false) :
    exec .psh s = .fault (.stackOutOfRange s.sp) := by
  simp [exec, execPsh, push_of_outOfRange _ s h]

theorem exec_pop (s : State) (h : inRange (s.sp + 1#16) = true) :
    exec .pop s =
      .next (handBack (drawDin (aluLoad (s.mem.read (s.sp + 1#16).toNat) { s with sp := s.sp + 1#16 }))) := by
  simp [exec, execPop, pop_of_inRange s h]

theorem exec_pop_fault (s : State) (h : inRange (s.sp + 1#16) = false) :
    exec .pop s = .fault (.stackOutOfRange (s.sp + 1#16)) := by
  simp [exec, execPop, pop_of_outOfRange s h]

/-- The word LDR delivers: through the pointer, or zero where the pointer is out of range (R110). -/
theorem exec_ldr (addr : Word) (s : State) :
    exec (.ldr addr) s =
      .next (handBack (aluLoad
        (if inRange (pointer addr s) then s.mem.read (pointer addr s).toNat else 0x0000#16)
        { s with din := if inRange (pointer addr s) then s.mem.read (pointer addr s).toNat else 0x0000#16 })) := by
  rw [exec, execLdr, ldrAccess, lookup_of_inRange (ea addr) s (inRange_ea addr), lookup_state]
  rfl

theorem exec_ldr_of_inRange (addr : Word) (s : State) (h : inRange (pointer addr s) = true) :
    exec (.ldr addr) s = .next (handBack (aluLoad (s.mem.read (pointer addr s).toNat)
      { s with din := s.mem.read (pointer addr s).toNat })) := by
  simp [exec_ldr, h]

theorem exec_ldr_of_outOfRange (addr : Word) (s : State) (h : inRange (pointer addr s) = false) :
    exec (.ldr addr) s = .next (handBack (aluLoad 0#16 { s with din := 0#16 })) := by
  simp [exec_ldr, h]

theorem exec_str (addr : Word) (s : State) :
    exec (.str addr) s =
      .next (handBack (drawDin { s with
        mem := if inRange (pointer addr s) then s.mem.write (pointer addr s).toNat s.acc else s.mem })) := by
  simp [exec, execStr, strAccess, store_state]

theorem exec_str_of_inRange (addr : Word) (s : State) (h : inRange (pointer addr s) = true) :
    exec (.str addr) s =
      .next (handBack (drawDin { s with mem := s.mem.write (pointer addr s).toNat s.acc })) := by
  simp [exec_str, h]

theorem exec_str_of_outOfRange (addr : Word) (s : State) (h : inRange (pointer addr s) = false) :
    exec (.str addr) s = .next (handBack (drawDin s)) := by
  simp [exec_str, h]

theorem exec_movPc (s : State) : exec .movPc s = .next (handBack { s with pc := s.acc }) := rfl

theorem exec_movSp (s : State) : exec .movSp s = .next (handBack { s with sp := s.acc }) := rfl

/-! ### The memory an execute phase leaves -/

/-- The words an instruction stores, as (address, word) pairs: none for the forms that store nothing. -/
def storesOf (i : Instr) (s : State) : List (Word × Word) :=
  match i with
  | .lda _ => []
  | .sto addr => [(ea addr, s.acc)]
  | .add _ => []
  | .sub _ => []
  | .jmp _ => []
  | .jge _ => []
  | .jne _ => []
  | .stp => []
  | .cll _ => [(s.sp, s.pc)]
  | .ret => []
  | .psh => [(s.sp, s.acc)]
  | .pop => []
  | .ldr _ => []
  | .str addr => if inRange (pointer addr s) then [(pointer addr s, s.acc)] else []
  | .movPc => []
  | .movSp => []

/-- The memory after an execute phase is the one before with the instruction's store made in it, at an address of the
memory. -/
theorem exec_mem {i : Instr} {s t : State} (h : exec i s = .next t) :
    (∀ x ∈ storesOf i s, inRange x.1 = true) ∧
    t.mem = (storesOf i s).foldl (fun m x => m.write x.1.toNat x.2) s.mem := by
  cases i with
  | lda addr => rw [exec_lda] at h; cases h; simp [storesOf]
  | sto addr => rw [exec_sto] at h; cases h; simp [storesOf]
  | add addr => rw [exec_add] at h; cases h; simp [storesOf]
  | sub addr => rw [exec_sub] at h; cases h; simp [storesOf]
  | jmp addr => rw [exec_jmp] at h; cases h; simp [storesOf]
  | jge addr => rw [exec_jge] at h; cases h; simp [storesOf]
  | jne addr => rw [exec_jne] at h; cases h; simp [storesOf]
  | stp => rw [exec_stp] at h; cases h; simp [storesOf]
  | cll addr =>
    cases hr : inRange s.sp
    · simp [exec_cll_fault addr s hr] at h
    · rw [exec_cll addr s hr] at h; cases h; simp [storesOf, hr]
  | ret =>
    cases hr : inRange (s.sp + 1#16)
    · simp [exec_ret_fault s hr] at h
    · rw [exec_ret s hr] at h; cases h; simp [storesOf]
  | psh =>
    cases hr : inRange s.sp
    · simp [exec_psh_fault s hr] at h
    · rw [exec_psh s hr] at h; cases h; simp [storesOf, hr]
  | pop =>
    cases hr : inRange (s.sp + 1#16)
    · simp [exec_pop_fault s hr] at h
    · rw [exec_pop s hr] at h; cases h; simp [storesOf]
  | ldr addr => rw [exec_ldr] at h; cases h; simp [storesOf]
  | str addr =>
    rw [exec_str] at h
    cases h
    cases hr : inRange (pointer addr s) <;> simp [storesOf, hr]
  | movPc => rw [exec_movPc] at h; cases h; simp [storesOf]
  | movSp => rw [exec_movSp] at h; cases h; simp [storesOf]

/-- An execute phase that answers a next state hands back to FETCH_0, but for STP's, which keeps its phase and halts
(40_microstep_engine.md R71); IR and `operand` stay as they were. -/
theorem exec_handsBack {i : Instr} {s t : State} (h : exec i s = .next t) :
    t.ir = s.ir ∧ t.operand = s.operand ∧
    ((i = .stp ∧ t.phase = s.phase ∧ t.halted = true) ∨ (i ≠ .stp ∧ t.phase = .fetch0 ∧ t.halted = s.halted)) := by
  cases i with
  | lda addr => rw [exec_lda] at h; cases h; simp
  | sto addr => rw [exec_sto] at h; cases h; simp
  | add addr => rw [exec_add] at h; cases h; simp
  | sub addr => rw [exec_sub] at h; cases h; simp
  | jmp addr => rw [exec_jmp] at h; cases h; simp
  | jge addr => rw [exec_jge] at h; cases h; simp
  | jne addr => rw [exec_jne] at h; cases h; simp
  | stp => rw [exec_stp] at h; cases h; simp
  | cll addr =>
    cases hr : inRange s.sp
    · simp [exec_cll_fault addr s hr] at h
    · rw [exec_cll addr s hr] at h; cases h; simp
  | ret =>
    cases hr : inRange (s.sp + 1#16)
    · simp [exec_ret_fault s hr] at h
    · rw [exec_ret s hr] at h; cases h; simp
  | psh =>
    cases hr : inRange s.sp
    · simp [exec_psh_fault s hr] at h
    · rw [exec_psh s hr] at h; cases h; simp
  | pop =>
    cases hr : inRange (s.sp + 1#16)
    · simp [exec_pop_fault s hr] at h
    · rw [exec_pop s hr] at h; cases h; simp
  | ldr addr => rw [exec_ldr] at h; cases h; simp
  | str addr => rw [exec_str] at h; cases h; simp
  | movPc => rw [exec_movPc] at h; cases h; simp
  | movSp => rw [exec_movSp] at h; cases h; simp

/-! ### The address argument is masked -/

theorem ea_decodeAddress (word : Word) : ea (decodeAddress word) = ea word := decodeAddress_idem word

theorem pointer_decodeAddress (word : Word) (s : State) : pointer (decodeAddress word) s = pointer word s := by
  rw [pointer, pointer, ea_decodeAddress]

/-- An instruction's work depends on the low 12 bits of its address argument only: the execute phases mask it (R53). -/
theorem exec_decodeAddress (op : Opcode) (word : Word) (s : State) :
    exec (instrOf op (decodeAddress word)) s = exec (instrOf op word) s := by
  cases op
  case cll =>
    cases hr : inRange s.sp
    · exact (exec_cll_fault _ s hr).trans (exec_cll_fault _ s hr).symm
    · rw [instrOf, instrOf, exec_cll _ s hr, exec_cll _ s hr, ea_decodeAddress]
  all_goals
    simp only [instrOf, exec_lda, exec_sto, exec_add, exec_sub, exec_jmp, exec_jge, exec_jne, exec_ldr, exec_str,
      ea_decodeAddress, pointer_decodeAddress]

theorem execDiags_decodeAddress (op : Opcode) (word : Word) (s : State) :
    execDiags (instrOf op (decodeAddress word)) s = execDiags (instrOf op word) s := by
  cases op <;>
    simp only [instrOf, execDiags, ldrAccess, strAccess, ea_decodeAddress, pointer_decodeAddress]

/-- LDR's one event is its second lookup's: its first address is in range (R110). -/
theorem execDiags_ldr (addr : Word) (s : State) :
    execDiags (.ldr addr) s = if inRange (pointer addr s) then [] else [.invalidAddress (pointer addr s)] := by
  rw [execDiags, ldrAccess, lookup_of_inRange _ _ (inRange_ea addr)]
  exact lookup_events _ _

theorem execDiags_str (addr : Word) (s : State) :
    execDiags (.str addr) s = if inRange (pointer addr s) then [] else [.invalidAddress (pointer addr s)] :=
  store_events _ _ _

end Sys2Proof.Machine
end

