-- ==== Sys2Proof/Laws/PerInstr.lean ====
section
/-! SUPPORT. The family EncodedFields: the encoded word of an instruction holds its opcode's number in bits 15 to 12 and
the low 12 bits of its address in bits 11 to 0 (30_encoding.md R51, R52). -/

namespace Sys2Proof.Laws.EncodedFields

/-- The two fields of the encoded word are the instruction's opcode number and address. -/
def Statement (i : Instr) : Prop :=
  opcodeField (encode i) = opcodeOf i.opcode ∧ decodeAddress (encode i) = decodeAddress i.address

/-- The shape of an instruction that takes an address. -/
theorem of_takesAddress (i : Instr) (h : i.opcode.takesAddress = true) : Statement i := by
  simp [Statement, encode, h]

/-- The shape of an instruction that takes none and whose address reads as zero. -/
theorem of_noAddress (i : Instr) (h : i.opcode.takesAddress = false) (hz : i.address = 0) : Statement i := by
  have hword : encodeNoAddress i.opcode = encodeAddress i.opcode 0 := by simp [encodeAddress]
  simp [Statement, encode, h, hz, hword]

theorem lda (addr : Word) : Statement (.lda addr) := of_takesAddress _ rfl
theorem sto (addr : Word) : Statement (.sto addr) := of_takesAddress _ rfl
theorem add (addr : Word) : Statement (.add addr) := of_takesAddress _ rfl
theorem sub (addr : Word) : Statement (.sub addr) := of_takesAddress _ rfl
theorem jmp (addr : Word) : Statement (.jmp addr) := of_takesAddress _ rfl
theorem jge (addr : Word) : Statement (.jge addr) := of_takesAddress _ rfl
theorem jne (addr : Word) : Statement (.jne addr) := of_takesAddress _ rfl
theorem stp : Statement .stp := of_noAddress _ rfl rfl
theorem cll (addr : Word) : Statement (.cll addr) := of_takesAddress _ rfl
theorem ret : Statement .ret := of_noAddress _ rfl rfl
theorem psh : Statement .psh := of_noAddress _ rfl rfl
theorem pop : Statement .pop := of_noAddress _ rfl rfl
theorem ldr (addr : Word) : Statement (.ldr addr) := of_takesAddress _ rfl
theorem str (addr : Word) : Statement (.str addr) := of_takesAddress _ rfl
theorem movPc : Statement .movPc := of_noAddress _ rfl rfl
theorem movSp : Statement .movSp := of_noAddress _ rfl rfl

end Sys2Proof.Laws.EncodedFields
end

