-- ==== Sys2Proof/Laws/Step.lean ====
section
/-! SUPPORT. What one micro-step can do, said once, phase by phase and as an inversion, and the runs built of it. -/

namespace Sys2Proof.Machine

open Sys2Proof.Safety

theorem step_halted (s : State) (h : s.halted = true) : step s = .next s := by simp [step, microStep, h]

theorem step_fetch0 (s : State) (h : s.halted = false) (hp : s.phase = .fetch0) : step s = .next (fetch0 s) := by
  simp [step, microStep, h, hp]

theorem step_fetch1 (s : State) (h : s.halted = false) (hp : s.phase = .fetch1) :
    step s = orFault (fetch1 s) id := by
  simp [step, microStep, h, hp]

theorem step_decode (s : State) (h : s.halted = false) (hp : s.phase = .decode) : step s = .next (decodeStep s) := by
  simp [step, microStep, h, hp]

/-- In an execute phase a running machine does exactly its instruction's work. -/
theorem step_exec (s : State) (i : Instr) (h : s.halted = false) (hi : currentInstr s = some i) :
    step s = exec i s := by
  cases hp : s.phase <;> simp [currentInstr, hp, Phase.opcode, instrOf] at hi <;>
    simp [step, microStep, h, hp, ← hi]

theorem fetch1_of_inRange (s : State) (h : inRange s.pc = true) :
    fetch1 s = .ok { drawDout (drawDin { s with ir := s.mem.read s.pc.toNat, pc := s.pc + 1#16 }) with
      phase := .decode } := by
  simp [fetch1, h, memRead]

theorem fetch1_of_outOfRange (s : State) (h : inRange s.pc = false) :
    fetch1 s = .error (.fetchOutOfRange s.pc) := by
  simp [fetch1, h]

theorem step_fetch1_of_inRange (s : State) (h : s.halted = false) (hp : s.phase = .fetch1) (hr : inRange s.pc = true) :
    step s = .next { drawDout (drawDin { s with ir := s.mem.read s.pc.toNat, pc := s.pc + 1#16 }) with
      phase := .decode } := by
  rw [step_fetch1 s h hp, fetch1_of_inRange s hr, orFault_ok, id]

theorem step_fetch1_of_outOfRange (s : State) (h : s.halted = false) (hp : s.phase = .fetch1)
    (hr : inRange s.pc = false) : step s = .fault (.fetchOutOfRange s.pc) := by
  rw [step_fetch1 s h hp, fetch1_of_outOfRange s hr, orFault_error]

/-- Everything one micro-step can be: the identity of a halted machine, a common phase, or an execute phase. -/
theorem step_cases (s : State) :
    (s.halted = true ∧ step s = .next s) ∨
    (s.halted = false ∧ s.phase = .fetch0 ∧ step s = .next (fetch0 s)) ∨
    (s.halted = false ∧ s.phase = .fetch1 ∧ step s = orFault (fetch1 s) id) ∨
    (s.halted = false ∧ s.phase = .decode ∧ step s = .next (decodeStep s)) ∨
    (s.halted = false ∧ ∃ op, s.phase.opcode = some op ∧
      step s = exec (instrOf op (decodeAddress s.operand)) s) := by
  cases h : s.halted
  · refine .inr ?_
    cases hp : s.phase
    case fetch0 => exact .inl ⟨rfl, rfl, step_fetch0 s h hp⟩
    case fetch1 => exact .inr (.inl ⟨rfl, rfl, step_fetch1 s h hp⟩)
    case decode => exact .inr (.inr (.inl ⟨rfl, rfl, step_decode s h hp⟩))
    all_goals
      exact .inr (.inr (.inr ⟨rfl, _, rfl, step_exec s _ h (by rw [currentInstr, hp]; rfl)⟩))
  · exact .inl ⟨rfl, step_halted s h⟩

/-- Everything that leads to a next state, with the next state of each common phase written out. -/
theorem step_next {s t : State} (h : step s = .next t) :
    (s.halted = true ∧ t = s) ∨
    (s.halted = false ∧ s.phase = .fetch0 ∧ t = fetch0 s) ∨
    (s.halted = false ∧ s.phase = .fetch1 ∧ inRange s.pc = true ∧
      t = { drawDout (drawDin { s with ir := s.mem.read s.pc.toNat, pc := s.pc + 1#16 }) with phase := .decode }) ∨
    (s.halted = false ∧ s.phase = .decode ∧ t = decodeStep s) ∨
    (s.halted = false ∧ ∃ op, s.phase.opcode = some op ∧
      exec (instrOf op (decodeAddress s.operand)) s = .next t) := by
  rcases step_cases s with ⟨hh, hs⟩ | ⟨hh, hp, hs⟩ | ⟨hh, hp, hs⟩ | ⟨hh, hp, hs⟩ | ⟨hh, op, hp, hs⟩
  · rw [hs] at h
    exact .inl ⟨hh, (Host.Outcome.next.inj h).symm⟩
  · rw [hs] at h
    exact .inr (.inl ⟨hh, hp, (Host.Outcome.next.inj h).symm⟩)
  · rw [hs] at h
    cases hr : inRange s.pc
    · simp [fetch1_of_outOfRange s hr] at h
    · rw [fetch1_of_inRange s hr] at h
      exact .inr (.inr (.inl ⟨hh, hp, rfl, (Host.Outcome.next.inj h).symm⟩))
  · rw [hs] at h
    exact .inr (.inr (.inr (.inl ⟨hh, hp, (Host.Outcome.next.inj h).symm⟩)))
  · rw [hs] at h
    exact .inr (.inr (.inr (.inr ⟨hh, op, hp, h⟩)))

/-! ### Phases -/

@[simp] theorem execPhase_opcode (op : Opcode) : (execPhase op).opcode = some op := by cases op <;> rfl

/-- In the execute phase of an opcode a running machine does that instruction's work. -/
theorem step_execPhase (s : State) (op : Opcode) (h : s.halted = false) (hp : s.phase = execPhase op) :
    step s = exec (instrOf op (decodeAddress s.operand)) s :=
  step_exec s _ h (by rw [currentInstr, hp, execPhase_opcode]; rfl)

theorem opcode_eq_some_iff (p : Phase) (op : Opcode) : p.opcode = some op ↔ p = execPhase op := by
  constructor
  · intro h
    cases p <;> cases op <;> first | rfl | exact absurd h (by decide)
  · rintro rfl
    exact execPhase_opcode op

/-! ### Runs -/

@[simp] theorem run_zero (s : State) : run 0 s = .next s := rfl

/-- A run that begins with a micro-step to `t` is a run from `t`. -/
theorem run_succ {s t : State} (k : Nat) (h : step s = .next t) : run (k + 1) s = run k t := by
  rw [run, h]

/-- A run whose first micro-step faults is that fault. -/
theorem run_succ_fault {s : State} {f : Fault} (k : Nat) (h : step s = .fault f) : run (k + 1) s = .fault f := by
  rw [run, h]

@[simp] theorem run_one (s : State) : run 1 s = step s := by
  rw [run]
  cases step s <;> rfl

/-- The run of the host's interface is the same run. -/
theorem core_run (k : Nat) (s : State) : core.run k s = run k s := by
  induction k generalizing s with
  | zero => rfl
  | succ k ih =>
    cases h : step s with
    | next t =>
      have hc : core.step s = .next t := h
      rw [run_succ k h, ← ih t]
      simp only [Host.Core.run, hc]
    | fault f =>
      have hc : core.step s = .fault f := h
      rw [run_succ_fault k h]
      simp only [Host.Core.run, hc]
      rfl
    | refused r =>
      have hc : core.step s = .refused r := h
      rw [run, h]
      simp only [Host.Core.run, hc]
      rfl

end Sys2Proof.Machine
end

