-- ==== Sys2Proof/Tests/Slice0.lean ====
section
/-! SUPPORT. Tests: each expected result is from 95_test_vectors.md (its table and row named) or from the rule named; and
one witness for each statement of the obligations that has hypotheses, one for each clause. Only single fields are
looked at, since a state after a step holds free words that nothing evaluates. -/

namespace Sys2Proof.Tests

open Sys2Proof.Machine Sys2Proof.Safety

/-! ### Helpers -/

/-- The step answers a next state of which `p` holds. -/
def nextIs (s : State) (p : State → Bool) : Bool :=
  match step s with
  | .next t => p t
  | .fault _ => false
  | .refused _ => false

/-- The step answers this fault. -/
def faultsWith (s : State) (f : Fault) : Bool :=
  match step s with
  | .next _ => false
  | .fault g => g == f
  | .refused _ => false

/-- Reset, but in a phase, with an instruction word in IR and `operand`, and a memory. -/
def inPhase (phase : Phase) (word : Word) (mem : Memory) : State :=
  { State.reset with phase := phase, ir := word, operand := word, mem := mem }

/-! ### Well-formedness: each check refuses an address of 4096 -/

theorem test_wf_lda : wellFormed (.lda 0x1000) = false := by decide
theorem test_wf_sto : wellFormed (.sto 0x1000) = false := by decide
theorem test_wf_add : wellFormed (.add 0x1000) = false := by decide
theorem test_wf_sub : wellFormed (.sub 0x1000) = false := by decide
theorem test_wf_jmp : wellFormed (.jmp 0x1000) = false := by decide
theorem test_wf_jge : wellFormed (.jge 0x1000) = false := by decide
theorem test_wf_jne : wellFormed (.jne 0x1000) = false := by decide
theorem test_wf_cll : wellFormed (.cll 0x1000) = false := by decide
theorem test_wf_ldr : wellFormed (.ldr 0x1000) = false := by decide
theorem test_wf_str : wellFormed (.str 0x1000) = false := by decide

/-- The largest address is accepted (R51). -/
theorem test_wf_accepts : wellFormed (.lda 0x0FFF) = true ∧ wellFormed (.str 0x0000) = true ∧ wellFormed .stp = true := by
  decide

/-! ### Decoding: a word of every constructor, written out (opcode, then address; table D) -/

theorem test_decode_lda : decode 0b0000_000100100011 = .lda 0x123 := by decide
theorem test_decode_sto : decode 0b0001_111111111111 = .sto 0xFFF := by decide
theorem test_decode_add : decode 0b0010_000000100001 = .add 0x021 := by decide
theorem test_decode_sub : decode 0b0011_000000100000 = .sub 0x020 := by decide
theorem test_decode_jmp : decode 0b0100_111111111111 = .jmp 0xFFF := by decide
theorem test_decode_jge : decode 0b0101_000000000101 = .jge 0x005 := by decide
theorem test_decode_jne : decode 0b0110_000000000000 = .jne 0x000 := by decide
theorem test_decode_stp : decode 0b0111_101010111100 = .stp := by decide
theorem test_decode_cll : decode 0b1000_000000010000 = .cll 0x010 := by decide
theorem test_decode_ret : decode 0b1001_000000000000 = .ret := by decide
theorem test_decode_psh : decode 0b1010_111111111111 = .psh := by decide
theorem test_decode_pop : decode 0b1011_000000000000 = .pop := by decide
theorem test_decode_ldr : decode 0b1100_000000100011 = .ldr 0x023 := by decide
theorem test_decode_str : decode 0b1101_000000100001 = .str 0x021 := by decide
theorem test_decode_movPc : decode 0b1110_000000000000 = .movPc := by decide
theorem test_decode_movSp : decode 0b1111_111111111111 = .movSp := by decide

/-- The empty word executes as `LDA 0x000` (table D). -/
theorem test_decode_zero : decode 0x0000 = .lda 0x000 := by decide

/-- The table's numbering; what is not one 16-bit word is refused, shorter or longer (R50). -/
theorem test_decodeTableWord :
    decodeTableWord 16 0xC023 = some (.ldr 0x023) ∧ decodeTableWord 16 0x10000 = none ∧
      decodeTableWord 32 0xC023 = none ∧ decodeTableWord 8 0x23 = none := by decide

/-- E1 to E3: encode. -/
theorem test_encode : encode (.lda 0x123) = 0x0123 ∧ encode (.str 0xFFF) = 0xDFFF ∧ encode (.jne 0x000) = 0x6000 := by
  decide

/-- E4, E5: a wide address argument is masked. -/
theorem test_encode_masks : encode (.jmp 0x1005) = 0x4005 ∧ encode (.cll 0xFFFF) = 0x8FFF := by decide

/-- E6, E7: the no-address form. -/
theorem test_encode_no_address : encode .stp = 0x7000 ∧ encode .movSp = 0xF000 := by decide

/-- E8, E9: the address field. -/
theorem test_decode_address : decodeAddress 0xDFFF = 0xFFF ∧ decodeAddress 0x7000 = 0x000 := by decide

/-! ### The ALU (a, b, result, Z, N, V, C) -/

/-- A row of table A or S holds of an ALU function, from the opposite flags. -/
def aluRow (alu : Word → State → State) (row : Word × Word × Word × Bool × Bool × Bool × Bool) : Bool :=
  let (a, b, r, z, n, v, c) := row
  let t := alu b { State.reset with acc := a, z := !z, n := !n, v := !v, c := !c }
  t.acc == r && t.z == z && t.n == n && t.v == v && t.c == c

/-- Table A: A2, A3, A4, A5, A6, A9, A13, A15. -/
theorem test_alu_add :
    [(0x0001#16, 0x0001#16, 0x0002#16, false, false, false, false), (0x7FFF, 0x0001, 0x8000, false, true, true, false),
     (0xFFFF, 0x0001, 0x0000, true, false, false, true), (0x8000, 0x8000, 0x0000, true, false, true, true),
     (0x8000, 0xFFFF, 0x7FFF, false, false, true, true), (0x1234, 0x0000, 0x1234, false, false, false, false),
     (0xC000, 0xC000, 0x8000, false, true, false, true), (0x00FF, 0xFF01, 0x0000, true, false, false, true)].all
      (aluRow aluAdd) = true := by decide

/-- Table S: S2, S3, S4, S5, S7, S9, S10, S15. -/
theorem test_alu_sub :
    [(0x0005#16, 0x0000#16, 0x0005#16, false, false, false, false), (0x0005, 0x0005, 0x0000, true, false, false, true),
     (0x0005, 0x0003, 0x0002, false, false, false, true), (0x0003, 0x0005, 0xFFFE, false, true, false, false),
     (0x8000, 0x0001, 0x7FFF, false, false, true, true), (0x0000, 0x8000, 0x8000, false, true, false, false),
     (0x8000, 0x8000, 0x0000, true, false, true, true), (0x0001, 0xFFFF, 0x0002, false, false, false, false)].all
      (aluRow aluSub) = true := by decide

/-- Table L: L2, L3, L4. -/
theorem test_alu_load :
    (aluLoad 0x0000 { State.reset with v := true, c := true }).z = true ∧
    (aluLoad 0x0000 { State.reset with v := true, c := true }).c = true ∧
    (aluLoad 0x8000 { State.reset with v := true }).n = true ∧ (aluLoad 0x8000 { State.reset with v := true }).v = true ∧
    (aluLoad 0x7FFF { State.reset with n := true, c := true }).n = false := by decide

/-! ### The instructions, one execute phase each -/

/-- M1. -/
theorem test_lda : nextIs { inPhase .lda0 0x0020 [(0x020, 0xBEEF)] with v := true, c := true }
    (fun t => t.acc == 0xBEEF && t.din == 0xBEEF && !t.z && t.n && t.v && t.c) = true := by decide

/-- M2. -/
theorem test_lda_zero : nextIs { inPhase .lda0 0x0FFF [] with acc := 5, n := true }
    (fun t => t.acc == 0 && t.z && !t.n) = true := by decide

/-- M4: the address is the low 12 bits of the whole word in `operand`. -/
theorem test_sto : nextIs { inPhase .sto0 0x1021 [] with acc := 0x000B }
    (fun t => t.mem == [(0x021, 0x000B)] && !t.z) = true := by decide

/-- M5, and a store of zero unlists its address. -/
theorem test_sto_edges : nextIs { inPhase .sto0 0x1FFF [] with acc := 0xFFFF } (fun t => t.mem == [(0xFFF, 0xFFFF)]) = true ∧
    nextIs (inPhase .sto0 0x1021 [(0x020, 1), (0x021, 7), (0x022, 2)]) (fun t => t.mem == [(0x020, 1), (0x022, 2)]) = true := by
  decide

/-- A3 (S-7). -/
theorem test_add : nextIs { inPhase .add0 0x2041 [(0x041, 0x0001)] with acc := 0x7FFF, c := true }
    (fun t => t.acc == 0x8000 && t.v && t.n && !t.z && !t.c) = true := by decide

/-- S5. -/
theorem test_sub : nextIs { inPhase .sub0 0x3041 [(0x041, 0x0005)] with acc := 0x0003, c := true }
    (fun t => t.acc == 0xFFFE && t.n && !t.c && !t.v && !t.z) = true := by decide

/-- J2. -/
theorem test_jmp : nextIs { inPhase .jmp0 0x4FFF [] with pc := 1 } (fun t => t.pc == 0x0FFF) = true := by decide

/-- J4; J6: V is not consulted. -/
theorem test_jge : nextIs { inPhase .jge0 0x5005 [] with pc := 3, n := true } (fun t => t.pc == 3) = true ∧
    nextIs { inPhase .jge0 0x5005 [] with pc := 3, acc := 0x7FFF, v := true } (fun t => t.pc == 5) = true := by decide

/-- J8; J9: taken at reset. -/
theorem test_jne : nextIs { inPhase .jne0 0x6000 [] with pc := 0x000A, z := true } (fun t => t.pc == 0x000A) = true ∧
    nextIs (inPhase .jne0 0x6003 []) (fun t => t.pc == 3) = true := by decide

/-- X5. -/
theorem test_stp : nextIs (inPhase .stp0 0x7000 []) (fun t => t.halted && t.phase == .stp0) = true := by decide

/-- K4. -/
theorem test_cll : nextIs { inPhase .cll0 0x8010 [] with pc := 1 }
    (fun t => t.mem == [(0x0FF, 0x0001)] && t.sp == 0x00FE && t.pc == 0x0010) = true := by decide

/-- K14. -/
theorem test_cll_fault : faultsWith { inPhase .cll0 0x8010 [] with pc := 5, sp := 0x2000 } (.stackOutOfRange 0x2000) = true := by
  decide

/-- K6: the popped word is not masked. -/
theorem test_ret : nextIs { inPhase .ret0 0x9000 [(0x0FF, 0xABCD)] with sp := 0x00FE, pc := 7 }
    (fun t => t.pc == 0xABCD && t.sp == 0x00FF) = true := by decide

/-- K15. -/
theorem test_ret_fault : faultsWith { inPhase .ret0 0x9000 [] with sp := 0x0FFF } (.stackOutOfRange 0x1000) = true := by decide

/-- K11; K7: SP wraps in 16 bits. -/
theorem test_psh : nextIs { inPhase .psh0 0xA000 [] with sp := 0x0FFF, acc := 1 }
      (fun t => t.mem == [(0xFFF, 1)] && t.sp == 0x0FFE) = true ∧
    nextIs { inPhase .psh0 0xA000 [] with sp := 0, acc := 7 } (fun t => t.mem == [(0, 7)] && t.sp == 0xFFFF) = true := by
  decide

/-- K9, K10. -/
theorem test_psh_fault : faultsWith { inPhase .psh0 0xA000 [] with sp := 0xFFFF } (.stackOutOfRange 0xFFFF) = true ∧
    faultsWith { inPhase .psh0 0xA000 [] with sp := 0x1000 } (.stackOutOfRange 0x1000) = true := by decide

/-- K2; K8: SP + 1 wraps to 0, which is in range. -/
theorem test_pop : nextIs { inPhase .pop0 0xB000 [(0x0FF, 0x1234)] with sp := 0x00FE, v := true }
      (fun t => t.acc == 0x1234 && t.sp == 0x00FF && !t.z && !t.n && t.v && t.mem == [(0x0FF, 0x1234)]) = true ∧
    nextIs { inPhase .pop0 0xB000 [(0, 7)] with sp := 0xFFFF } (fun t => t.acc == 7 && t.sp == 0) = true := by decide

/-- K12. -/
theorem test_pop_fault : faultsWith { inPhase .pop0 0xB000 [] with sp := 0x0FFF } (.stackOutOfRange 0x1000) = true := by decide

/-- M9: 4095 is the last valid pointer. -/
theorem test_ldr : nextIs (inPhase .ldr0 0xC022 [(0x022, 0x0FFF), (0xFFF, 0x8001)])
    (fun t => t.acc == 0x8001 && t.din == 0x8001 && !t.z && t.n) = true := by decide

/-- M7: the pointer is not masked (address 0 holds another word than 0). -/
theorem test_ldr_bad_pointer :
    nextIs { inPhase .ldr0 0xC022 [(0, 9), (0x022, 0x1000)] with v := true } (fun t => t.acc == 0 && t.din == 0 && t.z && t.v) = true ∧
    emitted (inPhase .ldr0 0xC022 [(0, 9), (0x022, 0x1000)]) = [.invalidAddress 0x1000] := by decide

/-- M13: the store may overwrite its own pointer. -/
theorem test_str : nextIs { inPhase .str0 0xD022 [(0x022, 0x0022)] with acc := 0x0044 }
    (fun t => t.mem == [(0x022, 0x0044)] && t.acc == 0x0044) = true := by decide

/-- M12. -/
theorem test_str_bad_pointer :
    nextIs { inPhase .str0 0xD022 [(0x022, 0x1000)] with acc := 0xBEEF } (fun t => t.mem == [(0x022, 0x1000)]) = true ∧
    emitted { inPhase .str0 0xD022 [(0x022, 0x1000)] with acc := 0xBEEF } = [.invalidAddress 0x1000] := by decide

/-- J11: not masked. -/
theorem test_movPc : nextIs { inPhase .movPc0 0xE000 [] with acc := 0x1234 } (fun t => t.pc == 0x1234) = true := by decide

/-- J13. -/
theorem test_movSp : nextIs { inPhase .movSp0 0xFFFF [] with acc := 0xFFFF } (fun t => t.sp == 0xFFFF && t.pc == 0) = true := by
  decide

/-! ### The engine -/

/-- Table F, step 1; X1: nothing is read, so a PC out of range is no fault yet. -/
theorem test_fetch0 : nextIs { State.reset with pc := 0x1000 } (fun t => t.phase == .fetch1 && t.pc == 0x1000) = true := by
  decide

/-- X2: the increment is not masked. -/
theorem test_fetch1 : nextIs { State.reset with phase := .fetch1, pc := 0x0FFF, mem := [(0xFFF, 0xA000)] }
    (fun t => t.ir == 0xA000 && t.pc == 0x1000 && t.phase == .decode) = true := by decide

/-- X3, X4. -/
theorem test_fetch1_fault :
    faultsWith { State.reset with phase := .fetch1, pc := 0x1000 } (.fetchOutOfRange 0x1000) = true ∧
    faultsWith { State.reset with phase := .fetch1, pc := 0xFFFF } (.fetchOutOfRange 0xFFFF) = true := by decide

/-- Table F, step 3: `operand` is the whole word, not the address. -/
theorem test_decode_step : nextIs { State.reset with phase := .decode, ir := 0x2040, pc := 1 }
    (fun t => t.operand == 0x2040 && t.phase == .add0 && t.pc == 1) = true := by decide

/-- X6. -/
theorem test_halted : nextIs { inPhase .stp0 0x7000 [] with halted := true, dout := 9 }
    (fun t => t == { inPhase .stp0 0x7000 [] with halted := true, dout := 9 }) = true := by decide

/-- A placed instruction is the one that runs, right after reset (log 7). -/
theorem test_withFetchWord : nextIs (State.reset.withFetchWord 16 0x4123) (fun t => t.pc == 0x0123 && t.ir == 0x4123) = true := by
  decide

/-- Observation ends at the last word (R154, R30). -/
theorem test_peek : (State.initial [(0xFFF, 7)]).peek 0xFFF = some 7 ∧ (State.initial []).peek 0 = some 0 ∧
    State.reset.peek 4096 = none := by decide

/-! ### Witnesses: the hypotheses of each statement can be met together -/

theorem witness_DecodeOfEncode : wellFormed (.lda 0x0FFF) = true ∧ wellFormed .movSp = true := by decide

theorem witness_EncodingFunctions_address : (0x0FFF#16).toNat < 4096 := by decide

theorem witness_DecodeIsTotal : { State.reset with phase := .decode, ir := 0xFFFF }.halted = false ∧
    { State.reset with phase := Phase.decode, ir := 0xFFFF }.phase = .decode := by decide

theorem witness_IgnoredAddressBits_words :
    opcodeField 0x7000 = opcodeField 0x7FFF ∧ (decode 0x7000).opcode.takesAddress = false := by decide

theorem witness_IgnoredAddressBits_next : ∃ t, Opcode.psh.takesAddress = false ∧
    (inPhase .psh0 0xA000 []).phase = execPhase .psh ∧ step (inPhase .psh0 0xA000 []) = .next t := ⟨_, rfl, rfl, rfl⟩

theorem witness_IgnoredAddressBits_fault : ∃ f, Opcode.psh.takesAddress = false ∧
    step { inPhase .psh0 0xA000 [] with sp := 0x1000 } = .fault f := ⟨_, rfl, rfl⟩

theorem witness_IgnoredAddressBits_jge : ∃ s t : State, s.phase = .jge0 ∧ s.n = true ∧ step s = .next t :=
  ⟨{ inPhase .jge0 0x5005 [] with n := true }, _, rfl, rfl, rfl⟩

theorem witness_IgnoredAddressBits_jne : ∃ s t : State, s.phase = .jne0 ∧ s.z = true ∧ step s = .next t :=
  ⟨{ inPhase .jne0 0x6000 [] with z := true }, _, rfl, rfl, rfl⟩

theorem witness_DirectAddress_fits : addressFits 0x0FFF = true := by decide

theorem witness_SubFlags : (0x7FFF#16 ≠ 0x8000#16) ∧ (0x8000#16 = 0x8000#16) := by decide

theorem witness_Lookup : (0x0FFF#16).toNat < 4096 ∧ 4096 ≤ (0x1000#16).toNat := by decide

theorem witness_Store : (0x0FFF#16).toNat < 4096 ∧ (0x0000#16).toNat ≠ (0x0FFF#16).toNat ∧ 4096 ≤ (0x1000#16).toNat := by decide

theorem witness_PopAfterPush : { State.reset with sp := 0x0000 }.sp.toNat < 4096 ∧
    { State.reset with sp := 0x0FFF }.sp.toNat < 4096 := by decide

theorem witness_CanonicalMemories : ∃ m m' : Memory, m.wf ∧ m'.wf ∧ m ≠ [] ∧ ∀ a, a < 4096 → m.read a = m'.read a :=
  ⟨[(0xFFF, 1)], [(0xFFF, 1)], by decide, by decide, by decide, fun _ _ => rfl⟩

/-- An address put twice, and the last address of the space. -/
theorem witness_InitialState : 4095 < 4096 ∧ (State.initial [(4095, 1), (4095, 2)]).mem.read 4095 = 2 := by decide

theorem witness_Cll : { State.reset with sp := 0x0FFF }.sp.toNat < 4096 ∧ 4096 ≤ { State.reset with sp := 0x1000 }.sp.toNat := by
  decide

theorem witness_Psh : { State.reset with sp := 0x0000 }.sp.toNat < 4096 ∧ 4096 ≤ { State.reset with sp := 0xFFFF }.sp.toNat := by
  decide

theorem witness_Ret : ({ State.reset with sp := 0x0FFE }.sp + 1#16).toNat < 4096 ∧
    4096 ≤ ({ State.reset with sp := 0x0FFF }.sp + 1#16).toNat := by decide

theorem witness_Pop : ({ State.reset with sp := 0xFFFF }.sp + 1#16).toNat < 4096 ∧
    4096 ≤ ({ State.reset with sp := 0xFFFE }.sp + 1#16).toNat := by decide

theorem witness_Str : (pointer 0x022 (inPhase .str0 0xD022 [(0x022, 0x0FFF)])).toNat < 4096 ∧
    4096 ≤ (pointer 0x022 (inPhase .str0 0xD022 [(0x022, 0x1000)])).toNat := by decide

theorem witness_Halted : { inPhase .stp0 0x7000 [] with halted := true }.halted = true := by decide

theorem witness_FetchZero : State.reset.halted = false ∧ State.reset.phase = .fetch0 := by decide

theorem witness_FetchOne_reads : ∃ s : State, s.halted = false ∧ s.phase = .fetch1 ∧ s.pc.toNat < 4096 :=
  ⟨{ State.reset with phase := .fetch1, pc := 0x0FFF }, by decide⟩

theorem witness_FetchOne_faults : ∃ s : State, s.halted = false ∧ s.phase = .fetch1 ∧ 4096 ≤ s.pc.toNat :=
  ⟨{ State.reset with phase := .fetch1, pc := 0x1000 }, by decide⟩

theorem witness_Decode : ∃ s : State, s.halted = false ∧ s.phase = .decode ∧ s.ir = 0xFFFF :=
  ⟨{ State.reset with phase := .decode, ir := 0xFFFF }, by decide⟩

theorem witness_ExecutePhase : (inPhase .str0 0xDFFF []).halted = false ∧ (inPhase .str0 0xDFFF []).phase = execPhase .str := by
  decide

theorem witness_FourMicroSteps : ∃ s : State, s.halted = false ∧ s.phase = .fetch0 ∧ s.pc.toNat < 4096 :=
  ⟨{ State.reset with pc := 0x0FFF }, by decide⟩

theorem witness_PlacedWord : 65535 < 65536 ∧ { State.reset with pc := 0x0FFF }.pc.toNat < 4096 := by decide

theorem witness_Phases_fetch0 : ∃ s t : State, s.halted = false ∧ step s = .next t ∧ s.phase = .fetch0 :=
  ⟨State.reset, _, rfl, rfl, rfl⟩

theorem witness_Phases_fetch1 : ∃ s t : State, s.halted = false ∧ step s = .next t ∧ s.phase = .fetch1 :=
  ⟨{ State.reset with phase := .fetch1, pc := 0x0FFF }, _, rfl, rfl, rfl⟩

theorem witness_Phases_decode : ∃ s t : State, s.halted = false ∧ step s = .next t ∧ s.phase = .decode :=
  ⟨{ State.reset with phase := .decode }, _, rfl, rfl, rfl⟩

theorem witness_Phases_execute : ∃ s t : State, s.halted = false ∧ step s = .next t ∧ s.phase = execPhase .movSp :=
  ⟨inPhase .movSp0 0xF000 [], _, rfl, rfl, rfl⟩

theorem witness_Phases_stp : ∃ s t : State, s.halted = false ∧ step s = .next t ∧ s.phase = .stp0 :=
  ⟨inPhase .stp0 0x7000 [], _, rfl, rfl, rfl⟩

theorem witness_KeepsMemoryCanonical : ∃ s t : State, s.mem.wf ∧ s.mem ≠ [] ∧ step s = .next t ∧ t.mem ≠ s.mem :=
  ⟨{ inPhase .sto0 0x1FFF [(0x021, 1)] with acc := 1 }, _, by decide, by decide, rfl, by decide⟩

theorem witness_KeepsEngineCoherent : ∃ s t : State, coherent s ∧ step s = .next t ∧ s.phase = .stp0 :=
  ⟨inPhase .stp0 0x7000 [], _,
    ⟨fun _ => rfl, fun _ h => (Option.some.inj h).symm, fun _ => rfl⟩, rfl, rfl⟩

theorem witness_KeepsFlagsDescribingAcc : ∃ s t : State, flagsDescribeAcc s ∧ step s = .next t ∧ s.phase = .add0 :=
  ⟨{ inPhase .add0 0x2041 [(0x041, 1)] with acc := 0x7FFF }, _, ⟨rfl, rfl⟩, rfl, rfl⟩

theorem witness_AluInstructions : ∃ t, (Instr.pop).opcode ∈ [Opcode.lda, .add, .sub, .ldr, .pop] ∧
    exec .pop State.reset = .next t := ⟨_, by decide, rfl⟩

theorem witness_OnlyStp_halted : ∃ s t : State, step s = .next t ∧ s.halted = true :=
  ⟨{ inPhase .stp0 0x7000 [] with halted := true }, _, rfl, rfl⟩

theorem witness_OnlyStp_running : ∃ s t : State, step s = .next t ∧ s.halted = false ∧ s.phase = .stp0 :=
  ⟨inPhase .stp0 0x7000 [], _, rfl, rfl, rfl⟩

/-- For the flags (both clauses), the registers (all but ACC, SP) and memory (its first clause). -/
theorem witness_WholeMachine_ret : ∃ s t : State, step s = .next t ∧ s.phase = .ret0 :=
  ⟨inPhase .ret0 0x9000 [], _, rfl, rfl⟩

/-- For the registers' ACC, SP, IR, DIN and operand clauses, and memory's first. -/
theorem witness_WholeMachine_jmp : ∃ s t : State, step s = .next t ∧ s.phase = .jmp0 :=
  ⟨inPhase .jmp0 0x4FFF [], _, rfl, rfl⟩

/-- For the registers' PC clause, and memory's first. -/
theorem witness_WholeMachine_lda : ∃ s t : State, step s = .next t ∧ s.phase = .lda0 :=
  ⟨inPhase .lda0 0x0FFF [], _, rfl, rfl⟩

theorem witness_Memory_sto : ∃ s t : State, step s = .next t ∧ s.phase = .sto0 ∧ 0 ≠ (ea s.operand).toNat :=
  ⟨inPhase .sto0 0x1FFF [], _, rfl, rfl, by decide⟩

theorem witness_Memory_str : ∃ s t : State, step s = .next t ∧ s.phase = .str0 ∧ 0 ≠ (pointer s.operand s).toNat :=
  ⟨inPhase .str0 0xD022 [(0x022, 0x0FFF)], _, rfl, rfl, by decide⟩

theorem witness_Memory_stack : ∃ s t : State, step s = .next t ∧ s.phase ∈ [Phase.psh0, .cll0] ∧ 0 ≠ s.sp.toNat :=
  ⟨{ inPhase .psh0 0xA000 [] with sp := 0x0FFF }, _, rfl, by decide, by decide⟩

theorem witness_CarryAndOverflow_next : ∃ s t : State, step s = .next t ∧ s.phase = .jge0 :=
  ⟨inPhase .jge0 0x5005 [], _, rfl, rfl⟩

theorem witness_CarryAndOverflow_fault : ∃ (s : State) (f : Fault), step s = .fault f :=
  ⟨{ State.reset with phase := .fetch1, pc := 0x1000 }, _, rfl⟩

theorem witness_DataLatches_next : ∃ s t : State, step s = .next t ∧ s.phase = .ldr0 :=
  ⟨inPhase .ldr0 0xC022 [], _, rfl, rfl⟩

theorem witness_DataLatches_fault : ∃ (s : State) (f : Fault), step s = .fault f :=
  ⟨{ inPhase .pop0 0xB000 [] with sp := 0x0FFF }, _, rfl⟩

theorem witness_StoreIsSeen : ∃ s : State, s.halted = false ∧ s.phase = .sto0 ∧ s.pc.toNat < 4096 ∧ ea s.operand = s.pc :=
  ⟨{ inPhase .sto0 0x1FFF [] with pc := 0x0FFF, acc := 0x7000 }, by decide⟩

theorem witness_RetAfterCll : { State.reset with sp := 0x0000 }.sp.toNat < 4096 := by decide

end Sys2Proof.Tests
end

section
/-! The encoding contract and the totality of DECODE (30_encoding.md R52, R60): both rest on the opcode table being a
bijection and on `execPhase` naming each opcode's own phase. -/

namespace Sys2Proof

open Sys2Proof.Machine

/-! ### The two encoders, and the opcode pattern of a word -/

/-- The two encoders agree on address 0 (R52). -/
theorem encodeAddress_zero (op : Opcode) : encodeAddress op 0#16 = encodeNoAddress op := by
  rw [encodeAddress, BitVec.zero_and, BitVec.or_zero]

/-- `opcodeAt` and `opcodeOf` are inverse to each other. -/
theorem opcodeAt_eq_iff (number : BitVec 4) (op : Opcode) : opcodeAt number = op ↔ opcodeOf op = number := by
  constructor
  · rintro rfl
    exact opcodeOf_opcodeAt number
  · rintro rfl
    exact opcodeAt_opcodeOf op

theorem decode_opcode (word : Word) : (decode word).opcode = opcodeAt (opcodeField word) := by
  rw [decode, instrOf_opcode]

/-- Mask 0xF000 with the opcode's number at the top as match is the pattern of the opcode (R60). -/
theorem and_opcodeMask_eq_iff (word : Word) (op : Opcode) :
    word &&& 0xF000#16 = encodeNoAddress op ↔ opcodeOf op = opcodeField word := by
  rw [and_opcodeMask]
  constructor
  · intro h
    -- The left side is itself an encoded word, that of the opcode `opcodeAt` finds, so its opcode field reads back.
    have hfield : opcodeField ((opcodeField word).setWidth 16 <<< 12) = opcodeField word := by
      have := opcodeField_encodeNoAddress (opcodeAt (opcodeField word))
      rwa [encodeNoAddress, opcodeOf_opcodeAt] at this
    rw [← hfield, h, opcodeField_encodeNoAddress]
  · intro h
    rw [← h, encodeNoAddress]

/-! ### The execute phases -/

theorem execPhase_ne_decode (op : Opcode) : execPhase op ≠ .decode := by
  intro h
  have hop : Phase.decode.opcode = some op := h ▸ execPhase_opcode op
  cases hop

theorem execPhase_injective (op op' : Opcode) (h : execPhase op = execPhase op') : op = op' := by
  have hop : some op = some op' := by rw [← execPhase_opcode op, h, execPhase_opcode]
  exact Option.some.inj hop

/-! ### The obligations -/

/-- Settles O3: the functions are R52's by definition; the roundtrip and the field are laws of encoded words. -/
theorem encodingFunctionsFollowTheContract : Obligations.EncodingFunctionsFollowTheContract := by
  refine ⟨fun _ _ => rfl, fun op => ⟨rfl, (encodeAddress_zero op).symm⟩, fun _ => rfl, ?roundtrip,
    opcodeField_encodeAddress⟩
  case roundtrip =>
    intro op address haddress
    rw [decodeAddress_encodeAddress, decodeAddress_of_lt address haddress]

/-- Settles O4: DECODE goes to the phase of `opcodeAt` of the field, and `opcodeAt` is the inverse of `opcodeOf`. -/
theorem decodeIsTotalAndSingleValued : Obligations.DecodeIsTotalAndSingleValued := by
  refine ⟨?step, ?unique, execPhase_injective, ?pattern⟩
  case step =>
    intro s hrunning hphase
    exact ⟨decodeStep s, opcodeAt (opcodeField s.ir), step_decode s hrunning hphase, decodeStep_phase s,
      execPhase_ne_decode _, opcodeOf_opcodeAt _⟩
  case unique =>
    intro number
    exact ⟨opcodeAt number, opcodeOf_opcodeAt number, fun op hop => ((opcodeAt_eq_iff number op).2 hop).symm⟩
  case pattern =>
    intro word op
    rw [decode_opcode, opcodeAt_eq_iff]
    exact (and_opcodeMask_eq_iff word op).symm

end Sys2Proof
end

section
/-! PROOFS. The ALU (41_alu.md): the sign test, and what each of the three functions writes and leaves. -/

namespace Sys2Proof

open Sys2Proof.Machine

/-- R82: the subtraction delivers the difference. -/
theorem aluSub_acc_eq_sub (b : Word) (s : State) : (aluSub b s).acc = s.acc - b := by
  rw [aluSub_acc, add_neg16]

/-- R83 in comparisons: the two flags of a load are facts about the loaded value alone. -/
theorem aluLoad_eq_decide (value : Word) (s : State) :
    aluLoad value s = { s with acc := value, z := decide (value = 0#16), n := decide (32768 ≤ value.toNat) } := by
  rw [aluLoad, isZero_eq, isNegative_eq]

/-- Settles O8: the test is bit 15 by definition, and bit 15 is set from 0x8000 on. -/
theorem signTestIsBitFifteen : Obligations.SignTestIsBitFifteen :=
  fun w => ⟨rfl, isNegative_iff w⟩

/-- Settles O9: the frame is `aluAdd`'s own form; each flag is read by the law of its rule. -/
theorem aluAddComputesSumAndFlags : Obligations.AluAddComputesSumAndFlags := by
  intro s b
  refine ⟨rfl, BitVec.toNat_add s.acc b, isZero_iff _, Iff.rfl, ?overflow, addCarry_iff _ _⟩
  case overflow => rw [aluAdd_v, addOverflow_eq, decide_eq_true_iff, aluAdd_acc]

/-- Settles O10: `aluSub` delegates to `aluAdd` by definition, and adding the negation is subtracting. -/
theorem aluSubAddsTheNegation : Obligations.AluSubAddsTheNegation := by
  intro s b
  refine ⟨rfl, aluSub_acc_eq_sub b s, ?difference⟩
  case difference => rw [aluSub_acc_eq_sub, BitVec.toNat_sub, Nat.add_comm]

/-- Settles O11: the written fields are `aluLoad_eq_decide`; V and C are not among them. -/
theorem aluLoadLeavesCarryAndOverflow : Obligations.AluLoadLeavesCarryAndOverflow :=
  fun s value => ⟨aluLoad_eq_decide value s, aluLoad_v value s, aluLoad_c value s⟩

end Sys2Proof
end

section
/-! PROOFS. The instruction word both ways (30_encoding.md R51 to R56, R60): an instruction is its opcode and its address
argument, a word is its two fields, and the two pairs are put into each other. -/

namespace Sys2Proof

open Sys2Proof.Machine

/-! ### An instruction is its opcode and its address argument -/

@[simp] theorem instrOf_opcode_address (i : Instr) : instrOf i.opcode i.address = i := by
  cases i <;> rfl

theorem address_of_noAddress (i : Instr) (h : i.opcode.takesAddress = false) : i.address = 0#16 := by
  cases i
  case stp | ret | psh | pop | movPc | movSp => rfl
  all_goals exact nomatch h

theorem instrOf_address (op : Opcode) (addr : Word) (h : op.takesAddress = true) : (instrOf op addr).address = addr := by
  cases op
  case stp | ret | psh | pop | movPc | movSp => exact nomatch h
  all_goals rfl

/-- The six no-address opcodes do not look at the address argument (R56). -/
theorem instrOf_of_noAddress (op : Opcode) (addr addr' : Word) (h : op.takesAddress = false) :
    instrOf op addr = instrOf op addr' := by
  cases op
  case stp | ret | psh | pop | movPc | movSp => rfl
  all_goals exact nomatch h

/-- Well-formedness is about the address argument alone (R51). -/
theorem wellFormed_eq (i : Instr) : wellFormed i = addressFits i.address := by
  cases i <;> rfl

/-! ### Encoding and decoding -/

/-- The fields of the encoded word, for every instruction at once (R51, R52). -/
theorem encode_fields (i : Instr) : Laws.EncodedFields.Statement i := by
  cases h : i.opcode.takesAddress
  · exact Laws.EncodedFields.of_noAddress i h (address_of_noAddress i h)
  · exact Laws.EncodedFields.of_takesAddress i h

/-- The roundtrip of any instruction: its address argument comes back reduced to 12 bits (R52, H-12). -/
theorem decode_encode (i : Instr) : decode (encode i) = instrOf i.opcode (decodeAddress i.address) := by
  obtain ⟨hopcode, haddress⟩ := encode_fields i
  rw [decode, hopcode, haddress, opcodeAt_opcodeOf]

theorem encodeAddress_decodeAddress (op : Opcode) (addr : Word) :
    encodeAddress op (decodeAddress addr) = encodeAddress op addr := by
  rw [encodeAddress, encodeAddress]
  exact congrArg (encodeNoAddress op ||| ·) (decodeAddress_idem addr)

/-- Settles O1: the roundtrip masks the address argument, and a well-formed one is its own low 12 bits. -/
theorem decodeOfEncodeIsTheInstruction : Obligations.DecodeOfEncodeIsTheInstruction := by
  intro i hwf
  have hfits : i.address.toNat < 4096 := (addressFits_iff _).1 (wellFormed_eq i ▸ hwf)
  rw [decode_encode, decodeAddress_of_lt _ hfits, instrOf_opcode_address]

/-- Settles O2: with an address the word is put together again from its fields, without one its opcode field alone. -/
theorem encodeOfDecodeIsTheCanonicalWord : Obligations.EncodeOfDecodeIsTheCanonicalWord := by
  intro word
  rw [encode, decode_opcode]
  split
  case isTrue htakes =>
    rw [decode, instrOf_address _ _ htakes, encodeAddress_decodeAddress, encodeAddress_fields]
  case isFalse =>
    exact ((and_opcodeMask_eq_iff word _).2 (opcodeOf_opcodeAt _)).symm

/-- Settles O6: the decoder evaluated on eight words. -/
theorem writtenWordsDecode : Obligations.WrittenWordsDecode := by
  unfold Obligations.WrittenWordsDecode
  decide

/-- Settles O7: `ea` and `decode_address` are one mask, the remainder mod 4096. -/
theorem directAddressIsTheLowTwelveBits : Obligations.DirectAddressIsTheLowTwelveBits :=
  fun operand => ⟨decodeAddress_toNat operand, rfl, fun hfits =>
    decodeAddress_of_lt operand ((addressFits_iff operand).1 hfits)⟩

end Sys2Proof
end

section
/-! PROOFS. What C and V say of an addition and of a subtraction (41_alu.md R85, laws 2 to 5 and 8). -/

namespace Sys2Proof

open Sys2Proof.Machine

/-- The signed value of a word by its unsigned one. -/
theorem word_toInt (w : Word) : w.toInt = if w.toNat < 32768 then (w.toNat : Int) else w.toNat - 65536 := by
  rw [BitVec.toInt_eq_toNat_cond]
  split <;> split <;> omega

/-- C's rule on a sum is the carry out of bit 15 (R85 law 2). -/
theorem addCarry_add (a b : Word) : addCarry b (a + b) = decide (65536 ≤ a.toNat + b.toNat) := by
  rw [addCarry, decide_eq_decide, BitVec.toNat_add]
  have ha := a.isLt
  have hb := b.isLt
  omega

/-- V's rule on a sum is the signed overflow (R85 law 3). -/
theorem addOverflow_add (a b : Word) :
    addOverflow a b (a + b) = decide (a.toInt + b.toInt < -32768 ∨ 32767 < a.toInt + b.toInt) := by
  rw [addOverflow_eq_toNat, decide_eq_decide, BitVec.toNat_add, word_toInt, word_toInt]
  have ha := a.isLt
  have hb := b.isLt
  split <;> split <;> omega

/-- Only 0x8000 has no negation among the signed words. -/
theorem neg16_toInt (b : Word) (h : b ≠ 0x8000#16) : (neg16 b).toInt = -b.toInt := by
  have hb := b.isLt
  have hne : b.toNat ≠ 32768 := fun hcontra => h (BitVec.eq_of_toNat_eq hcontra)
  rw [word_toInt, word_toInt, neg16_toNat]
  split <;> split <;> omega

/-- Settles O12: the two rules of the flags, on the sum of ACC and the addend. -/
theorem addFlagsAreCarryAndSignedOverflow : Obligations.AddFlagsAreCarryAndSignedOverflow :=
  fun s b => ⟨addCarry_add s.acc b, addOverflow_add s.acc b⟩

/-- Settles O13: the flags are those of adding the negation, whose unsigned value is 65536 less the subtrahend but at 0,
and whose signed value is the opposite but at 0x8000. -/
theorem subFlagsAreNoBorrowAndOverflowWithTwoExceptions :
    Obligations.SubFlagsAreNoBorrowAndOverflowWithTwoExceptions := by
  intro s b
  have hacc := s.acc.isLt
  refine ⟨?carry, ?overflow, ?exception, ?restored⟩
  case carry =>
    have hb := b.isLt
    have hzero : b = 0#16 ↔ b.toNat = 0 := BitVec.toNat_inj.symm
    rw [aluSub_c, addCarry_add, decide_eq_decide, neg16_toNat, Ne, hzero]
    omega
  case overflow =>
    intro hb
    rw [aluSub_v, addOverflow_add, neg16_toInt b hb, Int.sub_eq_add_neg]
  case exception =>
    rintro rfl
    have hneg : neg16 0x8000#16 = 0x8000#16 := by decide
    have hmin : (0x8000#16).toInt = -32768 := by decide
    rw [aluSub_v, addOverflow_add, hneg, hmin, ← decide_not, decide_eq_decide, decide_eq_decide, word_toInt]
    split <;> omega
  case restored =>
    rw [aluSub_acc_eq_sub, aluAdd_acc, BitVec.add_sub_cancel]

end Sys2Proof
end

section
/-! PROOFS. The accessors, the canonical form of memory, and the memory of an image (20_memory.md R31 to R36,
70_reset_and_hazards.md R150). -/

namespace Sys2Proof.Machine

/-! ### The listed cells are the words that read as something else than an unlisted one -/

theorem Memory.mem_iff_read (m : Memory) (h : m.wf) (a : Nat) (w : Word) :
    (a, w) ∈ m ↔ m.read a = w ∧ w ≠ Memory.unlisted := by
  obtain ⟨hrising, hcells⟩ := h
  induction m with
  | nil => simp [eq_comm]
  | cons cell m ih =>
    obtain ⟨b, v⟩ := cell
    obtain ⟨hhead, htail⟩ := List.pairwise_cons.1 hrising
    have hlater := ih htail fun x hx => hcells x (.tail _ hx)
    have hv : v ≠ Memory.unlisted := (hcells (b, v) (.head _)).2
    rw [List.mem_cons, Prod.mk.injEq, Memory.read_cons]
    by_cases hb : b = a
    · have hnew : (a, w) ∉ m := fun hm => absurd (hhead _ hm) (by simp [hb])
      rw [if_pos hb]
      constructor
      · rintro (⟨-, rfl⟩ | hm)
        · exact ⟨rfl, hv⟩
        · exact absurd hm hnew
      · rintro ⟨rfl, -⟩
        exact .inl ⟨hb.symm, rfl⟩
    · rw [if_neg hb, ← hlater]
      exact or_iff_right fun hcell => hb hcell.1.symm

/-- A canonical memory lists only addresses of the space, so memories that read alike there list the same cells. -/
theorem Memory.mem_of_read_eq {m m' : Memory} (h : m.wf) (h' : m'.wf)
    (hread : ∀ a, a < 4096 → m.read a = m'.read a) {x : Nat × Word} (hx : x ∈ m) : x ∈ m' := by
  obtain ⟨hword, hlisted⟩ := (Memory.mem_iff_read m h x.1 x.2).1 hx
  exact (Memory.mem_iff_read m' h' x.1 x.2).2 ⟨hread x.1 (h.2 x hx).1 ▸ hword, hlisted⟩

/-- Strictly rising lists of the same cells are the same list. -/
theorem Memory.eq_of_mem_iff {m m' : Memory} (h : m.wf) (h' : m'.wf) (hmem : ∀ x, x ∈ m ↔ x ∈ m') :
    m = m' := by
  have hnodup : ∀ {l : Memory}, l.wf → l.Nodup := fun hl =>
    hl.1.imp fun hlt heq => absurd (congrArg Prod.fst heq) (Nat.ne_of_lt hlt)
  have hperm : m.Perm m' := (List.perm_ext_iff_of_nodup (hnodup h) (hnodup h')).2 hmem
  exact hperm.eq_of_pairwise (fun x y _ _ hxy hyx => absurd hxy (Nat.lt_asymm hyx)) h.1 h'.1

/-! ### The memory of an image -/

/-- Each address of the space reads as the last word the image puts there (log 20). -/
theorem Memory.read_ofImage (image : List (Nat × Word)) (a : Nat) (ha : a < 4096) :
    (Memory.ofImage image).read a =
      ((image.reverse.find? (fun x => x.1 == a)).map Prod.snd).getD Memory.unlisted := by
  induction image using List.reverseRecOn with
  | nil => rfl
  | append_singleton image x ih =>
    rw [Memory.ofImage, List.foldl_append, List.foldl_cons, List.foldl_nil, ← Memory.ofImage,
      List.reverse_append, List.reverse_singleton, List.singleton_append]
    by_cases hx : x.1 = a
    · subst hx
      rw [if_pos ha, Memory.read_write_self]
      simp
    · have hother : (if x.1 < Config.memWords then (Memory.ofImage image).write x.1 x.2
          else Memory.ofImage image).read a = (Memory.ofImage image).read a := by
        split
        · exact Memory.read_write_other _ _ _ _ (Ne.symm hx)
        · rfl
      rw [hother, ih, List.find?_cons_of_neg (by simpa using hx)]

end Sys2Proof.Machine

namespace Sys2Proof

open Sys2Proof.Machine

/-- Settles O14: the two answers of Lookup. -/
theorem lookupDeliversTheWordOrZero : Obligations.LookupDeliversTheWordOrZero :=
  fun s a => ⟨fun ha => lookup_of_inRange a s ((inRange_iff a).2 ha),
    fun ha => lookup_of_outOfRange a s ((inRange_false_iff a).2 ha)⟩

/-- Settles O15: in range Store is the raw write, whose reads are known; out of range it answers the state it got. -/
theorem storeWritesOneWordOrNothing : Obligations.StoreWritesOneWordOrNothing := by
  refine fun s a v => ⟨fun ha => ?write, fun ha => store_of_outOfRange a v s ((inRange_false_iff a).2 ha)⟩
  case write =>
    exact ⟨memWrite a v s, store_of_inRange a v s ((inRange_iff a).2 ha), rfl, Memory.read_write_self _ _ _,
      fun x hx => Memory.read_write_other _ _ _ _ hx⟩

/-- Settles O16: the pop's new SP is the push's old one, whose word the push has just written. -/
theorem popAfterPushReturnsTheWord : Obligations.PopAfterPushReturnsTheWord := by
  intro s v hsp
  have hrange : inRange s.sp = true := (inRange_iff _).2 hsp
  have hback : s.sp - 1#16 + 1#16 = s.sp := BitVec.sub_add_cancel _ _
  refine ⟨_, push_of_inRange v s hrange, rfl, Memory.read_write_self _ _ _,
    fun x hx => Memory.read_write_other _ _ _ _ hx, ?pop⟩
  case pop => rw [pop_of_inRange _ (by simpa only [hback] using hrange), hback, Memory.read_write_self]

/-- Settles O17: the reads fix the cells, and the rising order fixes the list. -/
theorem canonicalMemoriesThatReadAlikeAreEqual : Obligations.CanonicalMemoriesThatReadAlikeAreEqual :=
  fun _ _ h h' hread => Memory.eq_of_mem_iff h h' fun _ =>
    ⟨Memory.mem_of_read_eq h h' hread, Memory.mem_of_read_eq h' h fun a ha => (hread a ha).symm⟩

/-- Settles O18: `State.initial` is reset with the image's memory. -/
theorem initialStateHoldsTheImage : Obligations.InitialStateHoldsTheImage :=
  fun image => ⟨rfl, fun a ha => Memory.read_ofImage image a ha⟩

/-- Settles O58: every field of the literal, and the empty memory. -/
theorem resetLeavesTheStatedValues : Obligations.ResetLeavesTheStatedValues :=
  ⟨rfl, rfl, rfl, rfl, rfl, rfl, rfl, rfl, rfl, rfl, rfl, rfl, rfl, Memory.read_nil⟩

end Sys2Proof
end

section
/-! PROOFS. Each instruction completes with its whole effect and frame (42_direct_memory.md to 48_stop.md): the law of its
execute phase gives the next state, which is the state before with the listed fields changed. -/

namespace Sys2Proof

open Sys2Proof.Machine

/-! ### Load, store and arithmetic at the direct address -/

/-- Settles O19: Lookup's word goes to DIN and through `alu_load`. -/
theorem ldaLoadsTheDirectWord : Obligations.LdaLoadsTheDirectWord := by
  intro s addr
  refine ⟨_, exec_lda addr s, ?_⟩
  rw [aluLoad_eq_decide]
  rfl

/-- Settles O20: STO writes the memory once, at the direct address. -/
theorem stoStoresAtTheDirectAddress : Obligations.StoStoresAtTheDirectAddress := fun s addr =>
  ⟨_, exec_sto addr s, rfl, Memory.read_write_self _ _ _, fun _ hx => Memory.read_write_other _ _ _ _ hx⟩

/-- The whole of `alu_add`, its flags by comparisons (R81). -/
theorem aluAdd_eq_decide (b : Word) (s : State) :
    aluAdd b s = { s with
      acc := s.acc + b, z := decide (s.acc + b = 0#16), n := (s.acc + b).getLsbD 15,
      v := decide (s.acc.getLsbD 15 = b.getLsbD 15 ∧ (s.acc + b).getLsbD 15 ≠ s.acc.getLsbD 15),
      c := decide ((s.acc + b).toNat < b.toNat) } := by
  rw [aluAdd, isZero_eq, addOverflow_eq]
  rfl

/-- Settles O21: ADD is `alu_add` of the direct word. -/
theorem addAddsTheDirectWord : Obligations.AddAddsTheDirectWord := by
  intro s addr
  refine ⟨_, exec_add addr s, ?_⟩
  rw [aluAdd_eq_decide]
  rfl

/-- Settles O22: SUB is `alu_add` of the negated direct word, and that sum is the difference. -/
theorem subSubtractsTheDirectWord : Obligations.SubSubtractsTheDirectWord := by
  intro s addr
  refine ⟨_, exec_sub addr s, ?_⟩
  rw [aluSub, aluAdd_eq_decide, add_neg16]
  rfl

/-! ### Jumps, register moves and the stop -/

/-- Settles O23. -/
theorem jmpSetsPc : Obligations.JmpSetsPc := fun s addr => ⟨_, exec_jmp addr s, rfl⟩

/-- Settles O24: one case for each value of N. -/
theorem jgeJumpsWhenNIsClear : Obligations.JgeJumpsWhenNIsClear := by
  intro s addr
  refine ⟨_, exec_jge addr s, ?_⟩
  cases s.n <;> rfl

/-- Settles O25: one case for each value of Z. -/
theorem jneJumpsWhenZIsClear : Obligations.JneJumpsWhenZIsClear := by
  intro s addr
  refine ⟨_, exec_jne addr s, ?_⟩
  cases s.z <;> rfl

/-- Settles O33. -/
theorem movPcCopiesAcc : Obligations.MovPcCopiesAcc := fun s => ⟨_, exec_movPc s, rfl⟩

/-- Settles O34. -/
theorem movSpCopiesAcc : Obligations.MovSpCopiesAcc := fun s => ⟨_, exec_movSp s, rfl⟩

/-- Settles O26: STP alone does not hand back to FETCH_0. -/
theorem stpHalts : Obligations.StpHalts := fun s => ⟨_, exec_stp s, rfl⟩

/-! ### The stack -/

/-- Settles O27: the push decides between the two answers. -/
theorem cllPushesPcAndJumps : Obligations.CllPushesPcAndJumps := by
  refine fun s addr => ⟨fun hsp => ?completes, fun hsp => exec_cll_fault addr s ((inRange_false_iff _).2 hsp)⟩
  case completes =>
    exact ⟨_, exec_cll addr s ((inRange_iff _).2 hsp), rfl, Memory.read_write_self _ _ _,
      fun _ hx => Memory.read_write_other _ _ _ _ hx⟩

/-- Settles O29: the push decides between the two answers. -/
theorem pshPushesAcc : Obligations.PshPushesAcc := by
  refine fun s => ⟨fun hsp => ?completes, fun hsp => exec_psh_fault s ((inRange_false_iff _).2 hsp)⟩
  case completes =>
    exact ⟨_, exec_psh s ((inRange_iff _).2 hsp), rfl, Memory.read_write_self _ _ _,
      fun _ hx => Memory.read_write_other _ _ _ _ hx⟩

/-- Settles O28: the pop decides between the two answers. -/
theorem retPopsPc : Obligations.RetPopsPc := fun s =>
  ⟨fun hsp => ⟨_, exec_ret s ((inRange_iff _).2 hsp), rfl⟩,
    fun hsp => exec_ret_fault s ((inRange_false_iff _).2 hsp)⟩

/-- Settles O30: the pop decides between the two answers, and the popped word goes through `alu_load`. -/
theorem popLoadsAccFromTheStack : Obligations.PopLoadsAccFromTheStack := by
  refine fun s => ⟨fun hsp => ?completes, fun hsp => exec_pop_fault s ((inRange_false_iff _).2 hsp)⟩
  case completes =>
    refine ⟨_, exec_pop s ((inRange_iff _).2 hsp), ?_⟩
    rw [aluLoad, isZero_eq]
    rfl

/-! ### Through the pointer -/

/-- Settles O31: the second lookup delivers the word at the pointer, or zero with its event. -/
theorem ldrLoadsThroughThePointer : Obligations.LdrLoadsThroughThePointer := by
  intro s addr p m
  have hword : (if inRange (pointer addr s) then s.mem.read (pointer addr s).toNat else 0#16) = m := by
    simp only [inRange_iff]
    rfl
  refine ⟨⟨_, exec_ldr addr s, ?state⟩, ?events⟩
  case state =>
    rw [hword, aluLoad, isZero_eq]
    rfl
  case events =>
    rw [execDiags_ldr]
    simp only [inRange_iff]
    rfl

/-- Settles O32: Store decides between the write and the event. -/
theorem strStoresThroughThePointer : Obligations.StrStoresThroughThePointer := by
  intro s addr
  refine ⟨?completes, rfl, ?events⟩
  case completes =>
    rcases Nat.lt_or_ge (pointer addr s).toNat 4096 with hp | hp
    · exact ⟨_, exec_str_of_inRange addr s ((inRange_iff _).2 hp), rfl, fun _ => Memory.read_write_self _ _ _,
        fun hout => absurd hp (Nat.not_lt_of_le hout), fun _ hx => Memory.read_write_other _ _ _ _ hx⟩
    · exact ⟨_, exec_str_of_outOfRange addr s ((inRange_false_iff _).2 hp), rfl,
        fun hin => absurd hp (Nat.not_le_of_lt hin), fun _ => rfl, fun _ _ => rfl⟩
  case events =>
    rw [execDiags_str]
    simp only [inRange_iff]

end Sys2Proof
end

section
/-! PROOFS. Any instruction's execute phase in one equation: the fault that stops it, else the state it leaves (20_memory.md
R36, R37). What an instruction writes and what it leaves unchanged is then read off that state. -/

namespace Sys2Proof.Machine

open Sys2Proof.Safety

/-! ### The one outcome of an execute phase -/

/-- The outcome of work that may be stopped by a fault and otherwise leaves `t`. -/
def outcome (stop : Option Fault) (t : State) : Host.Outcome State Fault Refusal :=
  match stop with
  | none => .next t
  | some f => .fault f

@[simp] theorem outcome_eq_next_iff (stop : Option Fault) (t u : State) :
    outcome stop t = .next u ↔ stop = none ∧ t = u := by
  cases stop <;> simp [outcome]

@[simp] theorem outcome_eq_fault_iff (stop : Option Fault) (t : State) (f : Fault) :
    outcome stop t = .fault f ↔ stop = some f := by
  cases stop <;> simp [outcome]

/-- The fault of an unchecked access at index `a`, where `a` is no index of a memory word (R36). -/
def uncheckedFault (fault : Word → Fault) (a : Word) : Option Fault := if inRange a then none else some (fault a)

theorem uncheckedFault_of_inRange (fault : Word → Fault) (a : Word) (h : inRange a = true) :
    uncheckedFault fault a = none := by
  rw [uncheckedFault, if_pos h]

theorem uncheckedFault_of_outOfRange (fault : Word → Fault) (a : Word) (h : inRange a = false) :
    uncheckedFault fault a = some (fault a) := by
  rw [uncheckedFault, h]
  rfl

theorem uncheckedFault_eq_some_iff (fault : Word → Fault) (a : Word) (f : Fault) :
    uncheckedFault fault a = some f ↔ 4096 ≤ a.toNat ∧ f = fault a := by
  rw [← inRange_false_iff]
  cases hr : inRange a
  · simp [uncheckedFault_of_outOfRange fault a hr, eq_comm]
  · simp [uncheckedFault_of_inRange fault a hr]

/-- The fault that stops an instruction: only those of the stack have one (R36, R37). -/
def stackFault : Instr → State → Option Fault
  | .lda _, _ => none
  | .sto _, _ => none
  | .add _, _ => none
  | .sub _, _ => none
  | .jmp _, _ => none
  | .jge _, _ => none
  | .jne _, _ => none
  | .stp, _ => none
  | .cll _, s => uncheckedFault .stackOutOfRange s.sp
  | .ret, s => uncheckedFault .stackOutOfRange (s.sp + 1#16)
  | .psh, s => uncheckedFault .stackOutOfRange s.sp
  | .pop, s => uncheckedFault .stackOutOfRange (s.sp + 1#16)
  | .ldr _, _ => none
  | .str _, _ => none
  | .movPc, _ => none
  | .movSp, _ => none

/-- The word LDR delivers: zero where the pointer is no address of the memory (R110). -/
def pointedWord (addr : Word) (s : State) : Word :=
  if inRange (pointer addr s) then memRead (pointer addr s) s else 0x0000#16

/-- The state an instruction leaves where no fault stops it (`exec_eq_outcome`). -/
def execState : Instr → State → State
  | .lda addr, s => handBack (aluLoad (directWord addr s) { s with din := directWord addr s })
  | .sto addr, s => handBack (memWrite (ea addr) s.acc s)
  | .add addr, s => handBack (drawDin (aluAdd (directWord addr s) s))
  | .sub addr, s => handBack (drawDin (aluSub (directWord addr s) s))
  | .jmp addr, s => handBack { s with pc := ea addr }
  | .jge addr, s => handBack { s with pc := if s.n then s.pc else ea addr }
  | .jne addr, s => handBack { s with pc := if s.z then s.pc else ea addr }
  | .stp, s => { drawDout s with halted := true }
  | .cll addr, s => handBack { memWrite s.sp s.pc s with sp := s.sp - 1#16, pc := ea addr }
  | .ret, s => handBack (drawDin { s with sp := s.sp + 1#16, pc := memRead (s.sp + 1#16) s })
  | .psh, s => handBack { memWrite s.sp s.acc s with sp := s.sp - 1#16 }
  | .pop, s => handBack (drawDin (aluLoad (memRead (s.sp + 1#16) s) { s with sp := s.sp + 1#16 }))
  | .ldr addr, s => handBack (aluLoad (pointedWord addr s) { s with din := pointedWord addr s })
  | .str addr, s => handBack (drawDin { s with
      mem := if inRange (pointer addr s) then s.mem.write (pointer addr s).toNat s.acc else s.mem })
  | .movPc, s => handBack { s with pc := s.acc }
  | .movSp, s => handBack { s with sp := s.acc }

/-- An execute phase is stopped by its stack fault or leaves `execState`. -/
theorem exec_eq_outcome (i : Instr) (s : State) : exec i s = outcome (stackFault i s) (execState i s) := by
  cases i
  case lda addr => exact exec_lda addr s
  case sto addr => exact exec_sto addr s
  case ldr addr => exact exec_ldr addr s
  case str addr => exact exec_str addr s
  case cll addr =>
    cases hr : inRange s.sp
    · rw [exec_cll_fault addr s hr, stackFault, uncheckedFault_of_outOfRange _ _ hr, outcome]
    · rw [exec_cll addr s hr, stackFault, uncheckedFault_of_inRange _ _ hr]
      rfl
  case psh =>
    cases hr : inRange s.sp
    · rw [exec_psh_fault s hr, stackFault, uncheckedFault_of_outOfRange _ _ hr, outcome]
    · rw [exec_psh s hr, stackFault, uncheckedFault_of_inRange _ _ hr]
      rfl
  case ret =>
    cases hr : inRange (s.sp + 1#16)
    · rw [exec_ret_fault s hr, stackFault, uncheckedFault_of_outOfRange _ _ hr, outcome]
    · rw [exec_ret s hr, stackFault, uncheckedFault_of_inRange _ _ hr]
      rfl
  case pop =>
    cases hr : inRange (s.sp + 1#16)
    · rw [exec_pop_fault s hr, stackFault, uncheckedFault_of_outOfRange _ _ hr, outcome]
    · rw [exec_pop s hr, stackFault, uncheckedFault_of_inRange _ _ hr]
      rfl
  all_goals rfl

theorem eq_execState_of_exec {i : Instr} {s t : State} (h : exec i s = .next t) : t = execState i s := by
  rw [exec_eq_outcome, outcome_eq_next_iff] at h
  exact h.2.symm

theorem exec_eq_fault_iff (i : Instr) (s : State) (f : Fault) : exec i s = .fault f ↔ stackFault i s = some f := by
  rw [exec_eq_outcome, outcome_eq_fault_iff]

/-! ### The registers and flags an instruction leaves as they were (10_state.md R10 to R18) -/

section Frame

variable {i : Instr} (s : State)

theorem execState_acc (h : i.opcode ∉ [Opcode.lda, .add, .sub, .pop, .ldr]) : (execState i s).acc = s.acc := by
  cases i
  case lda | add | sub | pop | ldr => exact absurd h (by simp [Instr.opcode])
  all_goals rfl

theorem execState_pc (h : i.opcode ∉ [Opcode.jmp, .jge, .jne, .cll, .ret, .movPc]) : (execState i s).pc = s.pc := by
  cases i
  case jmp | jge | jne | cll | ret | movPc => exact absurd h (by simp [Instr.opcode])
  all_goals rfl

theorem execState_sp (h : i.opcode ∉ [Opcode.psh, .pop, .cll, .ret, .movSp]) : (execState i s).sp = s.sp := by
  cases i
  case psh | pop | cll | ret | movSp => exact absurd h (by simp [Instr.opcode])
  all_goals rfl

theorem execState_ir : (execState i s).ir = s.ir := by cases i <;> rfl

theorem execState_operand : (execState i s).operand = s.operand := by cases i <;> rfl

theorem execState_din (h : i.opcode ∉ [Opcode.lda, .add, .sub, .pop, .ret, .ldr, .str]) :
    (execState i s).din = s.din := by
  cases i
  case lda | add | sub | pop | ret | ldr | str => exact absurd h (by simp [Instr.opcode])
  all_goals rfl

theorem execState_z_n (h : i.opcode ∉ [Opcode.lda, .add, .sub, .pop, .ldr]) :
    (execState i s).z = s.z ∧ (execState i s).n = s.n := by
  cases i
  case lda | add | sub | pop | ldr => exact absurd h (by simp [Instr.opcode])
  all_goals exact ⟨rfl, rfl⟩

theorem execState_v_c (h : i.opcode ∉ [Opcode.add, .sub]) :
    (execState i s).v = s.v ∧ (execState i s).c = s.c := by
  cases i
  case add | sub => exact absurd h (by simp [Instr.opcode])
  all_goals exact ⟨rfl, rfl⟩

/-- Every instruction but STP hands back to FETCH_0, the machine still running if it was (R71). -/
theorem execState_of_ne_stp (h : i.opcode ≠ .stp) :
    (execState i s).phase = .fetch0 ∧ (execState i s).halted = s.halted := by
  cases i
  case stp => exact absurd rfl h
  all_goals exact ⟨rfl, rfl⟩

end Frame

/-! ### Z and N after the instructions that write ACC (R26) -/

theorem aluAdd_flagsDescribeAcc (b : Word) (s : State) : flagsDescribeAcc (aluAdd b s) := ⟨isZero_eq _, rfl⟩

theorem aluLoad_flagsDescribeAcc (w : Word) (s : State) : flagsDescribeAcc (aluLoad w s) := ⟨isZero_eq _, rfl⟩

/-- Each of the five ends with an ALU function, and nothing after it writes ACC, Z or N. -/
theorem execState_flagsDescribeAcc {i : Instr} (s : State) (h : i.opcode ∈ [Opcode.lda, .add, .sub, .pop, .ldr]) :
    flagsDescribeAcc (execState i s) := by
  cases i
  case add | sub => exact aluAdd_flagsDescribeAcc _ s
  case lda | ldr | pop => exact aluLoad_flagsDescribeAcc _ s
  all_goals exact absurd h (by simp [Instr.opcode])

/-! ### What no execute phase reads -/

/-- No execute phase reads V, C, DIN, DOUT or `draws`: changing them changes those five at most, and V and C only where
they were changed (R16 to R18, 90_conflicts.md C6). -/
theorem execState_congr (i : Instr) (s : State) (v c : Bool) (din dout : Word) (draws : Nat) :
    ∃ v' c' din' dout' draws',
      execState i { s with v := v, c := c, din := din, dout := dout, draws := draws } =
        { execState i s with v := v', c := c', din := din', dout := dout', draws := draws' } ∧
      (v = s.v → v' = (execState i s).v) ∧ (c = s.c → c' = (execState i s).c) := by
  cases i
  case add | sub => exact ⟨_, _, _, _, _, rfl, fun _ => rfl, fun _ => rfl⟩
  all_goals exact ⟨_, _, _, _, _, rfl, id, id⟩

/-- An execute phase takes its address from the instruction, and passes `operand` on unread. -/
theorem execState_withOperand (i : Instr) (s : State) (x : Word) :
    execState i { s with operand := x } = { execState i s with operand := x } := by
  cases i <;> rfl

/-- The one field that can stop an execute phase is SP (R36). -/
theorem stackFault_congr (i : Instr) {s s' : State} (h : s'.sp = s.sp) : stackFault i s' = stackFault i s := by
  cases i
  case cll | psh | ret | pop => rw [stackFault, stackFault, h]
  all_goals rfl

end Sys2Proof.Machine
end

section
/-! PROOFS. The engine (40_microstep_engine.md): the common phases, the hand-over to the execute phases, and the three
micro-steps that fetch and decode an instruction. -/

namespace Sys2Proof.Machine

open Sys2Proof.Safety

/-! ### The events of a micro-step -/

theorem emitted_of_halted (s : State) (h : s.halted = true) : emitted s = [] := by rw [emitted, if_pos h]

theorem emitted_of_commonPhase (s : State) (h : s.phase.opcode = none) : emitted s = [] := by
  rw [emitted, currentInstr, h]
  split <;> rfl

theorem emitted_execPhase (s : State) (op : Opcode) (h : s.halted = false) (hp : s.phase = execPhase op) :
    emitted s = execDiags (instrOf op s.operand) s := by
  rw [emitted, h, currentInstr, hp, execPhase_opcode, ← execDiags_decodeAddress]
  rfl

/-- Every address but a pointer is in range, so only LDR and STR can emit an event (R75, R131). -/
theorem execDiags_eq_nil (i : Instr) (s : State) (h : i.opcode ≠ .ldr ∧ i.opcode ≠ .str) : execDiags i s = [] := by
  cases i
  case lda addr => rw [execDiags, lookup_events, inRange_ea, if_pos rfl]
  case sto addr => rw [execDiags, store_events, inRange_ea, if_pos rfl]
  case ldr => exact absurd rfl h.1
  case str => exact absurd rfl h.2
  all_goals rfl

/-! ### Fetch and decode -/

/-- What FETCH_1 leaves where it completes (R69). -/
def afterFetch1 (s : State) : State :=
  { drawDout (drawDin { s with ir := s.mem.read s.pc.toNat, pc := s.pc + 1#16 }) with phase := .decode }

/-- What the three common phases leave, begun in FETCH_0 (R66). -/
def fetched (s : State) : State := decodeStep (afterFetch1 (fetch0 s))

theorem fetched_eq (s : State) :
    fetched s = { s with
      ir := s.mem.read s.pc.toNat, operand := s.mem.read s.pc.toNat, pc := s.pc + 1#16,
      phase := execPhase (decode (s.mem.read s.pc.toNat)).opcode,
      din := (fetched s).din, dout := (fetched s).dout, draws := (fetched s).draws } := by
  rw [decode_opcode]
  rfl

theorem run_of_fetch0 (s : State) (h : s.halted = false) (hp : s.phase = .fetch0) (hr : inRange s.pc = true) (k : Nat) :
    run (k + 3) s = run k (fetched s) := by
  rw [run_succ (k + 2) (step_fetch0 s h hp), run_succ (k + 1) (step_fetch1_of_inRange (fetch0 s) h rfl hr)]
  exact run_succ k (step_decode (afterFetch1 (fetch0 s)) h rfl)

/-- The instruction fetched is the one that runs. -/
theorem step_fetched (s : State) (h : s.halted = false) :
    step (fetched s) = exec (decode (s.mem.read s.pc.toNat)) (fetched s) :=
  step_execPhase (fetched s) (opcodeAt (opcodeField (s.mem.read s.pc.toNat))) h rfl

/-- What holds of the state a micro-step leaves, shown kind by kind: of a halted machine as it is, after each of the common
phases, and after the execute phase of each opcode. -/
theorem step_next_elim {R : State → Prop} {s t : State} (hstep : step s = .next t)
    (halted : s.halted = true → R s)
    (fetch0 : s.halted = false → s.phase = .fetch0 → R (fetch0 s))
    (fetch1 : s.halted = false → s.phase = .fetch1 → R (afterFetch1 s))
    (decode : s.halted = false → s.phase = .decode → R (decodeStep s))
    (execute : ∀ op, s.halted = false → s.phase = execPhase op →
      exec (instrOf op (decodeAddress s.operand)) s = .next t → R t) : R t := by
  rcases step_next hstep with ⟨hh, rfl⟩ | ⟨hr, hp, rfl⟩ | ⟨hr, hp, -, rfl⟩ | ⟨hr, hp, rfl⟩ | ⟨hr, op, hp, hexec⟩
  · exact halted hh
  · exact fetch0 hr hp
  · exact fetch1 hr hp
  · exact decode hr hp
  · exact execute op hr ((opcode_eq_some_iff _ _).1 hp) hexec

/-! ### An instruction placed at PC -/

/-- The state of `placeFetched` before its three common phases: the word at a PC from which it can be fetched. -/
def placedAtPc (word : Word) (s : State) : State :=
  { s with
    pc := if inRange s.pc then s.pc else Config.resetPc, halted := false, phase := .fetch0,
    mem := s.mem.write (if inRange s.pc then s.pc else Config.resetPc).toNat word }

theorem inRange_placedAtPc_pc (word : Word) (s : State) : inRange (placedAtPc word s).pc = true := by
  have hreset : inRange Config.resetPc = true := by decide
  rw [placedAtPc]
  split
  · assumption
  · exact hreset

theorem placeFetched_eq (word : Word) (s : State) : placeFetched word s = fetched (placedAtPc word s) := by
  have hfetch : fetch1 (fetch0 (placedAtPc word s)) = .ok (afterFetch1 (fetch0 (placedAtPc word s))) :=
    fetch1_of_inRange _ (inRange_placedAtPc_pc word s)
  have hplace : placeFetched word s = match fetch1 (fetch0 (placedAtPc word s)) with
      | .ok t => decodeStep t
      | .error _ => placedAtPc word s := rfl
  rw [hplace, hfetch, fetched]

theorem placedAtPc_read (word : Word) (s : State) :
    (placedAtPc word s).mem.read (placedAtPc word s).pc.toNat = word :=
  Memory.read_write_self _ _ _

theorem placedAtPc_pc (word : Word) (s : State) (h : inRange s.pc = true) : (placedAtPc word s).pc = s.pc :=
  if_pos h

theorem withFetchWord_eq (s : State) (w : Nat) (h : w < 65536) :
    s.withFetchWord 16 w = fetched (placedAtPc (BitVec.ofNat 16 w) s) := by
  rw [State.withFetchWord, Nat.mod_eq_of_lt (show w < 2 ^ 16 from h), placeFetched_eq]

end Sys2Proof.Machine

namespace Sys2Proof

open Sys2Proof.Machine Sys2Proof.Safety

/-- Settles O36: `fetch0` writes the phase and DOUT. -/
theorem fetchZeroOnlyMovesThePhase : Obligations.FetchZeroOnlyMovesThePhase := fun s hrunning hphase =>
  ⟨emitted_of_commonPhase s (by rw [hphase]; rfl), _, step_fetch0 s hrunning hphase, rfl⟩

/-- Settles O37: below 4096 the increment does not wrap. -/
theorem fetchOneReadsTheWordAtPc : Obligations.FetchOneReadsTheWordAtPc := by
  intro s hrunning hphase
  refine ⟨fun hpc => ⟨_, step_fetch1_of_inRange s hrunning hphase ((inRange_iff _).2 hpc), ?increment, rfl⟩,
    fun hpc => step_fetch1_of_outOfRange s hrunning hphase ((inRange_false_iff _).2 hpc)⟩
  case increment =>
    change (s.pc + 1#16).toNat = s.pc.toNat + 1
    rw [BitVec.toNat_add]
    exact Nat.mod_eq_of_lt (by simp; omega)

/-- Settles O38: the opcode is the one whose number IR's top four bits are. -/
theorem decodeCopiesTheWordAndDispatches : Obligations.DecodeCopiesTheWordAndDispatches := fun s hrunning hphase =>
  ⟨_, opcodeAt (opcodeField s.ir), step_decode s hrunning hphase, opcodeOf_opcodeAt _, rfl⟩

/-- Settles O39: the dispatch masks the address, and the execute phases mask it too. -/
theorem executePhaseRunsItsInstruction : Obligations.ExecutePhaseRunsItsInstruction := by
  intro s op hrunning hphase
  have hstep := step_execPhase s op hrunning hphase
  refine ⟨hstep, hstep.trans (exec_decodeAddress op s.operand s), ?wellFormed, emitted_execPhase s op hrunning hphase⟩
  case wellFormed =>
    rw [wellFormed_eq, addressFits_iff]
    cases htakes : op.takesAddress
    · rw [address_of_noAddress _ (by rw [instrOf_opcode, htakes])]
      decide
    · rw [instrOf_address _ _ htakes]
      exact decodeAddress_lt s.operand

/-- Settles O40: the three common phases in a row, then the execute phase they dispatch to. -/
theorem fourMicroStepsRunTheInstructionAtPc : Obligations.FourMicroStepsRunTheInstructionAtPc := by
  intro s hrunning hphase hpc word
  have hrun := run_of_fetch0 s hrunning hphase ((inRange_iff _).2 hpc)
  have hfourth := step_fetched s hrunning
  exact ⟨fetched s, hrun 0, fetched_eq s, hfourth, (hrun 1).trans ((run_one _).trans hfourth)⟩

/-- Settles O41: placing a word is fetching it from where it was put. -/
theorem placedWordRunsNext : Obligations.PlacedWordRunsNext := by
  intro s w hw word u
  have hu : u = fetched (placedAtPc word s) := withFetchWord_eq s w hw
  have hword : (placedAtPc word s).mem.read (placedAtPc word s).pc.toNat = word := placedAtPc_read word s
  rw [hu]
  refine ⟨?runs, rfl, hword, hword, fun hpc => ?inMemory, rfl, rfl, rfl, rfl, rfl, rfl⟩
  case runs => rw [step_fetched _ rfl, hword]
  case inMemory =>
    have hsame := placedAtPc_pc word s ((inRange_iff _).2 hpc)
    exact ⟨congrArg (· + 1#16) hsame, hsame ▸ hword⟩

/-- Settles O42: the law of the step in each phase gives the phase it leaves. -/
theorem phasesFollowTheCycle : Obligations.PhasesFollowTheCycle := by
  intro s t hrunning hstep
  refine ⟨fun hp => ?fetch0, fun hp => ?fetch1, fun hp => ?decode, fun op hp hop => ?execute, fun hp => ?stop⟩
  case fetch0 =>
    cases (step_fetch0 s hrunning hp).symm.trans hstep
    rfl
  case fetch1 =>
    cases hr : inRange s.pc
    · cases (step_fetch1_of_outOfRange s hrunning hp hr).symm.trans hstep
    · cases (step_fetch1_of_inRange s hrunning hp hr).symm.trans hstep
      rfl
  case decode =>
    cases (step_decode s hrunning hp).symm.trans hstep
    exact ⟨_, rfl⟩
  case execute =>
    obtain rfl := eq_execState_of_exec ((step_execPhase s op hrunning hp).symm.trans hstep)
    obtain ⟨hphase, hhalted⟩ := execState_of_ne_stp s ((instrOf_opcode op _).trans_ne hop)
    exact ⟨hphase, hhalted.trans hrunning⟩
  case stop =>
    obtain rfl := eq_execState_of_exec ((step_execPhase s .stp hrunning hp).symm.trans hstep)
    exact ⟨hp, rfl⟩

/-- Settles O35: a run of a halted machine takes its identity step each time. -/
theorem haltedMachineStaysAsItIs : Obligations.HaltedMachineStaysAsItIs := by
  intro s hhalted
  refine ⟨step_halted s hhalted, emitted_of_halted s hhalted, fun k => ?_⟩
  induction k with
  | zero => rfl
  | succ k ih => rw [run_succ k (step_halted s hhalted), ih]

end Sys2Proof
end

section
/-! PROOFS. The invariants of the machine (10_state.md R15, R21, R26): each from what a common phase leaves and from what
any execute phase leaves. -/

namespace Sys2Proof.Machine

open Sys2Proof.Safety

/-! ### The memory after an instruction's stores -/

theorem Memory.wf_foldl_write (stores : List (Word × Word)) (m : Memory) (h : m.wf)
    (hrange : ∀ x ∈ stores, inRange x.1 = true) :
    (stores.foldl (fun m x => m.write x.1.toNat x.2) m).wf := by
  induction stores generalizing m with
  | nil => exact h
  | cons x stores ih =>
    have hx : x.1.toNat < Config.memWords := (inRange_iff x.1).1 (hrange x (.head _))
    exact ih _ (Memory.wf_write m _ _ h hx) fun y hy => hrange y (.tail _ hy)

theorem Memory.read_foldl_write_other (stores : List (Word × Word)) (m : Memory) (a : Nat)
    (h : ∀ x ∈ stores, a ≠ x.1.toNat) :
    (stores.foldl (fun m x => m.write x.1.toNat x.2) m).read a = m.read a := by
  induction stores generalizing m with
  | nil => rfl
  | cons x stores ih =>
    rw [List.foldl_cons, ih _ fun y hy => h y (.tail _ hy), Memory.read_write_other _ _ _ _ (h x (.head _))]

theorem storesOf_eq_nil {i : Instr} (s : State) (h : i.opcode ∉ [Opcode.sto, .str, .psh, .cll]) : storesOf i s = [] := by
  cases i
  case sto | str | psh | cll => exact absurd h (by simp [Instr.opcode])
  all_goals rfl

theorem exec_mem_of_not_store {i : Instr} {s t : State} (h : i.opcode ∉ [Opcode.sto, .str, .psh, .cll])
    (hexec : exec i s = .next t) : t.mem = s.mem := by
  rw [(exec_mem hexec).2, storesOf_eq_nil s h, List.foldl_nil]

/-- Every store of an instruction is at the one address its phase presents (R37). -/
theorem exec_read_other {i : Instr} {s t : State} {p : Word} (hp : ∀ x ∈ storesOf i s, x.1 = p)
    (hexec : exec i s = .next t) (a : Nat) (ha : a ≠ p.toNat) : t.mem.read a = s.mem.read a := by
  rw [(exec_mem hexec).2, Memory.read_foldl_write_other _ _ _ fun x hx => hp x hx ▸ ha]

/-! ### Z and N, and the engine registers, where little changes -/

/-- Where ACC, Z and N are as before, they describe each other as before. -/
theorem flagsDescribeAcc_of_eq {s t : State} (h : flagsDescribeAcc s) (hacc : t.acc = s.acc) (hz : t.z = s.z)
    (hn : t.n = s.n) : flagsDescribeAcc t := by
  obtain ⟨hzero, hneg⟩ := h
  exact ⟨by rw [hz, hacc, hzero], by rw [hn, hacc, hneg]⟩

/-- FETCH_0 and FETCH_1 are the phases of no opcode, so only `operand` and IR need agree there (R15). -/
theorem coherent_of_commonPhase {s : State} (hp : s.phase.opcode = none) (h : s.phase ≠ .decode → s.operand = s.ir)
    (hrunning : s.halted = false) : coherent s :=
  ⟨h, by simp [hp], by simp [hrunning]⟩

end Sys2Proof.Machine

namespace Sys2Proof

open Sys2Proof.Machine Sys2Proof.Safety

/-- Settles O43: only an execute phase writes memory, and then in range. -/
theorem stepKeepsMemoryCanonical : Obligations.StepKeepsMemoryCanonical := by
  intro s t hwf hstep
  apply step_next_elim hstep
  case halted | fetch0 | fetch1 | decode => intros; exact hwf
  case execute =>
    intro op _ _ hexec
    obtain ⟨hrange, hmem⟩ := exec_mem hexec
    exact hmem ▸ Memory.wf_foldl_write _ _ hwf hrange

/-- Settles O44: IR changes only on the way to DECODE, where nothing is asked of `operand`; DECODE makes them agree and
picks IR's phase; an execute phase touches neither, and STP, which halts, is in STP_0. -/
theorem stepKeepsEngineCoherent : Obligations.StepKeepsEngineCoherent := by
  intro s t hcoherent hstep
  have ⟨hoperand, hphase, _⟩ := hcoherent
  apply step_next_elim hstep
  case halted => exact fun _ => hcoherent
  case fetch0 => exact fun hr hp => coherent_of_commonPhase rfl (fun _ => hoperand (by simp [hp])) hr
  case fetch1 => exact fun hr _ => coherent_of_commonPhase rfl (fun hne => absurd rfl hne) hr
  case decode =>
    refine fun hr _ => ⟨fun _ => rfl, fun op hop => ?_, fun hh => nomatch hr.symm.trans hh⟩
    exact (Option.some.inj ((execPhase_opcode _).symm.trans hop)).symm
  case execute =>
    intro op hr hp hexec
    have hagree : s.operand = s.ir := hoperand (hp ▸ execPhase_ne_decode op)
    obtain ⟨hir, hop, ⟨hstp, hstays, -⟩ | ⟨-, hback, hruns⟩⟩ := exec_handsBack hexec
    · have hopstp : op = .stp := (instrOf_opcode op _).symm.trans (congrArg Instr.opcode hstp)
      refine ⟨fun _ => ?_, fun op' hop' => ?_, fun _ => ?_⟩
      · rw [hop, hir, hagree]
      · rw [hir, hphase op' (hstays ▸ hop')]
      · rw [hstays, hp, hopstp, execPhase]
    · refine coherent_of_commonPhase (by rw [hback, Phase.opcode]) (fun _ => ?_) (hruns.trans hr)
      rw [hop, hir, hagree]

/-- Settles O45: the invariants speak of the memory, which an image keeps canonical, and of the reset values. -/
theorem initialStateMeetsTheInvariants : Obligations.InitialStateMeetsTheInvariants :=
  ⟨⟨reset_mem_wf, coherent_of_commonPhase rfl (fun _ => rfl) rfl⟩,
    fun image => ⟨Memory.wf_ofImage image, coherent_of_commonPhase rfl (fun _ => rfl) rfl⟩⟩

/-- Settles O46: five instructions make it so whatever was, and nothing else writes ACC, Z or N. -/
theorem stepKeepsFlagsDescribingAcc : Obligations.StepKeepsFlagsDescribingAcc := by
  intro s t hflags hstep
  apply step_next_elim hstep
  case halted | fetch0 | fetch1 | decode => intros; exact hflags
  case execute =>
    intro op _ _ hexec
    rw [eq_execState_of_exec hexec]
    by_cases hop : (instrOf op (decodeAddress s.operand)).opcode ∈ [Opcode.lda, .add, .sub, .pop, .ldr]
    · exact execState_flagsDescribeAcc s hop
    · obtain ⟨hz, hn⟩ := execState_z_n s hop
      exact flagsDescribeAcc_of_eq hflags (execState_acc s hop) hz hn

/-- Settles O47: at reset ACC is zero and Z is false. -/
theorem aluInstructionsMakeFlagsDescribeAcc : Obligations.AluInstructionsMakeFlagsDescribeAcc := by
  refine ⟨fun hreset => absurd hreset.1 (by decide), fun i s t hop hexec => ?_⟩
  rw [eq_execState_of_exec hexec]
  exact execState_flagsDescribeAcc s ((List.Perm.mem_iff (by decide)).1 hop)

end Sys2Proof
end

section
/-! PROOFS. Rules of the whole machine: which phase writes what, which phase can stop or emit, and which fields no phase
reads (10_state.md R10 to R19, 60_exceptions.md R131 to R135). -/

namespace Sys2Proof.Machine

open Sys2Proof.Safety

/-! ### The one outcome of a micro-step -/

/-- The fault that stops a micro-step (R133): FETCH_1's, or the instruction's in an execute phase. -/
def stepFault (s : State) : Option Fault :=
  if s.halted then none
  else
    match s.phase.opcode with
    | some op => stackFault (instrOf op (decodeAddress s.operand)) s
    | none => if s.phase = .fetch1 then uncheckedFault .fetchOutOfRange s.pc else none

/-- The state a micro-step leaves where no fault stops it (`step_eq_outcome`). -/
def stepState (s : State) : State :=
  if s.halted then s
  else
    match s.phase.opcode with
    | some op => execState (instrOf op (decodeAddress s.operand)) s
    | none => if s.phase = .fetch0 then fetch0 s else if s.phase = .fetch1 then afterFetch1 s else decodeStep s

theorem step_eq_outcome (s : State) : step s = outcome (stepFault s) (stepState s) := by
  rcases step_cases s with ⟨hh, hs⟩ | ⟨hr, hp, hs⟩ | ⟨hr, hp, hs⟩ | ⟨hr, hp, hs⟩ | ⟨hr, op, hp, hs⟩
  · simp [hs, stepFault, stepState, hh, outcome]
  · simp [hs, stepFault, stepState, hr, hp, Phase.opcode, outcome]
  · cases hpc : inRange s.pc
    · simp [hs, fetch1_of_outOfRange s hpc, stepFault, hr, hp, Phase.opcode, uncheckedFault_of_outOfRange _ _ hpc, outcome]
    · simp [hs, fetch1_of_inRange s hpc, stepFault, stepState, hr, hp, Phase.opcode, uncheckedFault_of_inRange _ _ hpc,
        outcome, afterFetch1]
  · simp [hs, stepFault, stepState, hr, hp, Phase.opcode, outcome]
  · simp [hs, exec_eq_outcome, stepFault, stepState, hr, hp]

/-! ### V, C, DIN, DOUT and the draws are read by no micro-step -/

theorem stepFault_congr (s : State) (v c : Bool) (din dout : Word) (draws : Nat) :
    stepFault { s with v := v, c := c, din := din, dout := dout, draws := draws } = stepFault s := by
  rw [stepFault, stepFault]
  cases s.phase.opcode with
  | none => rfl
  | some op =>
    dsimp only
    split
    · rfl
    · exact stackFault_congr _ rfl

theorem stepState_congr (s : State) (v c : Bool) (din dout : Word) (draws : Nat) :
    ∃ v' c' din' dout' draws',
      stepState { s with v := v, c := c, din := din, dout := dout, draws := draws } =
        { stepState s with v := v', c := c', din := din', dout := dout', draws := draws' } ∧
      (v = s.v → v' = (stepState s).v) ∧ (c = s.c → c' = (stepState s).c) := by
  unfold stepState
  dsimp only
  split
  · exact ⟨_, _, _, _, _, rfl, id, id⟩
  · split
    · exact execState_congr _ s v c din dout draws
    · split
      · exact ⟨_, _, _, _, _, rfl, id, id⟩
      · split
        · exact ⟨_, _, _, _, _, rfl, id, id⟩
        · exact ⟨_, _, _, _, _, rfl, id, id⟩

/-- Steps of two states that differ in the five fields differ in them only, and in V and C only where those differed. -/
theorem step_congr (s : State) (v c : Bool) (din dout : Word) (draws : Nat) :
    (∀ t, step s = .next t → ∃ v' c' din' dout' draws',
      step { s with v := v, c := c, din := din, dout := dout, draws := draws } =
        .next { t with v := v', c := c', din := din', dout := dout', draws := draws' } ∧
      (v = s.v → v' = t.v) ∧ (c = s.c → c' = t.c)) ∧
    (∀ f, step s = .fault f →
      step { s with v := v, c := c, din := din, dout := dout, draws := draws } = .fault f) := by
  simp only [step_eq_outcome, outcome_eq_next_iff, outcome_eq_fault_iff, stepFault_congr]
  refine ⟨?_, fun f hf => hf⟩
  rintro t ⟨hgoes, rfl⟩
  obtain ⟨v', c', din', dout', draws', hstate, hrest⟩ := stepState_congr s v c din dout draws
  exact ⟨v', c', din', dout', draws', ⟨hgoes, hstate⟩, hrest⟩

/-! ### A phase that does not read `operand` -/

/-- Where the two address arguments give one instruction's work, the step passes `operand` on and does not depend on it. -/
theorem step_withOperand {s : State} {op : Opcode} {x : Word} (hp : s.phase = execPhase op)
    (hsame : exec (instrOf op (decodeAddress x)) s = exec (instrOf op (decodeAddress s.operand)) s) :
    (∀ t, step s = .next t → step { s with operand := x } = .next { t with operand := x }) ∧
    (∀ f, step s = .fault f → step { s with operand := x } = .fault f) := by
  rcases Bool.eq_false_or_eq_true s.halted with hh | hr
  · rw [step_halted s hh, step_halted { s with operand := x } hh]
    exact ⟨fun t ht => by cases ht; rfl, fun f hf => nomatch hf⟩
  · rw [step_execPhase s op hr hp, ← hsame, step_execPhase { s with operand := x } op hr hp]
    simp only [exec_eq_outcome, outcome_eq_next_iff, outcome_eq_fault_iff, execState_withOperand,
      stackFault_congr _ (show { s with operand := x }.sp = s.sp from rfl)]
    exact ⟨fun t ⟨hgoes, ht⟩ => ⟨hgoes, ht ▸ rfl⟩, fun f hf => hf⟩

theorem exec_jge_not_taken (addr addr' : Word) (s : State) (hn : s.n = true) :
    exec (.jge addr) s = exec (.jge addr') s := by
  rw [exec_jge, exec_jge, if_pos hn, if_pos hn]

theorem exec_jne_not_taken (addr addr' : Word) (s : State) (hz : s.z = true) :
    exec (.jne addr) s = exec (.jne addr') s := by
  rw [exec_jne, exec_jne, if_pos hz, if_pos hz]

/-! ### Events and phases -/

theorem emitted_of_pointerPhase (s : State) (h : s.halted = false) (hp : s.phase = .ldr0 ∨ s.phase = .str0) :
    emitted s = if 4096 ≤ (pointer s.operand s).toNat then [.invalidAddress (pointer s.operand s)] else [] := by
  have hevents : ∀ p : Word, (if inRange p then [] else [Diag.invalidAddress p]) =
      if 4096 ≤ p.toNat then [.invalidAddress p] else [] := fun p => by
    simp only [inRange_iff, ← Nat.not_lt, ite_not]
  rcases hp with hp | hp
  · rw [emitted_execPhase s .ldr h hp, instrOf, execDiags_ldr, hevents]
  · rw [emitted_execPhase s .str h hp, instrOf, execDiags_str, hevents]

theorem emitted_of_otherPhase (s : State) (hp : ¬ (s.phase = .ldr0 ∨ s.phase = .str0)) : emitted s = [] := by
  rcases Bool.eq_false_or_eq_true s.halted with hh | hr
  · exact emitted_of_halted s hh
  · cases hop : s.phase.opcode with
    | none => exact emitted_of_commonPhase s hop
    | some op =>
      have hphase := (opcode_eq_some_iff _ _).1 hop
      rw [emitted_execPhase s op hr hphase]
      refine execDiags_eq_nil _ s ⟨?_, ?_⟩ <;> rw [instrOf_opcode] <;> rintro rfl
      · exact hp (.inl hphase)
      · exact hp (.inr hphase)

/-- A phase outside the execute phases of some opcodes is, if an execute phase, that of none of them. -/
theorem opcode_notMem_of_phase {s : State} {op : Opcode} {ops : List Opcode} (addr : Word) (hp : s.phase = execPhase op)
    (h : s.phase ∉ ops.map execPhase) : (instrOf op addr).opcode ∉ ops := by
  rw [hp] at h
  rw [instrOf_opcode]
  exact fun hop => h (List.mem_map_of_mem hop)

end Sys2Proof.Machine

namespace Sys2Proof

open Sys2Proof.Machine Sys2Proof.Safety

/-- Settles O5: a no-address opcode is one instruction whatever the address; a jump not taken leaves PC alone. -/
theorem ignoredAddressBitsHaveNoEffect : Obligations.IgnoredAddressBitsHaveNoEffect := by
  refine ⟨?words, ?noAddress, ?notTaken⟩
  case words =>
    intro word word' hfield htakes
    rw [decode_opcode] at htakes
    rw [decode, decode, ← hfield, instrOf_of_noAddress _ _ _ htakes]
  case noAddress =>
    intro s x op htakes hphase
    obtain ⟨hnext, hfault⟩ := step_withOperand hphase
      (congrArg (exec · s) (instrOf_of_noAddress op (decodeAddress x) (decodeAddress s.operand) htakes))
    exact ⟨fun t ht => ⟨t.din, t.dout, t.draws, hnext t ht⟩, hfault⟩
  case notTaken =>
    rintro s t x (⟨hphase, hn⟩ | ⟨hphase, hz⟩) hstep
    · have hnext := (step_withOperand (op := .jge) (x := x) hphase (exec_jge_not_taken _ _ s hn)).1
      exact ⟨t.din, t.dout, t.draws, hnext t hstep⟩
    · have hnext := (step_withOperand (op := .jne) (x := x) hphase (exec_jne_not_taken _ _ s hz)).1
      exact ⟨t.din, t.dout, t.draws, hnext t hstep⟩

/-- Settles O48: no common phase writes `halted`, and STP alone does among the instructions. -/
theorem onlyStpHaltsAndNothingRestarts : Obligations.OnlyStpHaltsAndNothingRestarts := by
  intro s t hstep
  refine ⟨fun hh => ?halted, fun hr => ?running⟩
  case halted => exact (Host.Outcome.next.inj ((step_halted s hh).symm.trans hstep)).symm
  case running =>
    apply step_next_elim hstep
    case halted => exact fun hh => nomatch hr.symm.trans hh
    case fetch0 => exact fun _ hp => by simp [hr, hp]
    case fetch1 => exact fun _ hp => by simp [hr, hp, afterFetch1]
    case decode => exact fun _ hp => by simp [hr, hp]
    case execute =>
      intro op _ hp hexec
      rw [eq_execState_of_exec hexec, hp]
      by_cases hop : op = .stp
      · subst hop
        exact iff_of_true rfl rfl
      · have hruns := (execState_of_ne_stp s ((instrOf_opcode op (decodeAddress s.operand)).trans_ne hop)).2
        rw [hruns, hr]
        exact iff_of_false Bool.false_ne_true fun hstp => hop (execPhase_injective op .stp hstp)

/-- Settles O49: the common phases write no flag; the execute phases by the frame of `execState`. -/
theorem flagsChangeOnlyInTheirPhases : Obligations.FlagsChangeOnlyInTheirPhases := by
  intro s t hstep
  apply step_next_elim hstep
  case halted | fetch0 | fetch1 | decode => intros; exact ⟨fun _ => ⟨rfl, rfl⟩, fun _ => ⟨rfl, rfl⟩⟩
  case execute =>
    intro op _ hp hexec
    rw [eq_execState_of_exec hexec]
    exact ⟨fun h => execState_v_c s (opcode_notMem_of_phase (ops := [.add, .sub]) _ hp h),
      fun h => execState_z_n s (opcode_notMem_of_phase (ops := [.lda, .add, .sub, .pop, .ldr]) _ hp h)⟩

/-- Settles O50: FETCH_1 writes IR, PC and DIN and DECODE `operand`; the execute phases by the frame of `execState`. -/
theorem registersChangeOnlyInTheirPhases : Obligations.RegistersChangeOnlyInTheirPhases := by
  intro s t hstep
  apply step_next_elim hstep
  case halted | fetch0 => simp
  case fetch1 => exact fun _ hp => by simp [hp, afterFetch1]
  case decode => exact fun _ hp => by simp [hp]
  case execute =>
    intro op _ hp hexec
    rw [eq_execState_of_exec hexec]
    refine ⟨fun h => execState_acc s (opcode_notMem_of_phase (ops := [.lda, .add, .sub, .pop, .ldr]) _ hp h),
      fun h => execState_pc s (opcode_notMem_of_phase (ops := [.jmp, .jge, .jne, .cll, .ret, .movPc]) _ hp ?_),
      fun h => execState_sp s (opcode_notMem_of_phase (ops := [.psh, .pop, .cll, .ret, .movSp]) _ hp h),
      fun _ => execState_ir s, fun _ => execState_operand s,
      fun h => execState_din s (opcode_notMem_of_phase (ops := [.lda, .add, .sub, .pop, .ret, .ldr, .str]) _ hp ?_)⟩
    · exact List.not_mem_of_not_mem_cons h
    · exact List.not_mem_of_not_mem_cons h

/-- Settles O51: the stores of the phase's instruction are all the memory changes there are. -/
theorem memoryChangesOnlyWhereAStorePoints : Obligations.MemoryChangesOnlyWhereAStorePoints := by
  intro s t hstep
  apply step_next_elim hstep
  case halted | fetch0 | fetch1 | decode =>
    intros; exact ⟨fun _ => rfl, fun _ _ _ => rfl, fun _ _ _ => rfl, fun _ _ _ => rfl⟩
  case execute =>
    intro op _ hp hexec
    have hop : ∀ op', s.phase = execPhase op' → op = op' := fun op' hp' => execPhase_injective _ _ (hp ▸ hp')
    refine ⟨fun h => ?other, fun hsto => ?sto, fun hstr => ?str, fun hstack => ?stack⟩
    case other =>
      exact exec_mem_of_not_store (opcode_notMem_of_phase (ops := [.sto, .str, .psh, .cll]) _ hp h) hexec
    case sto =>
      obtain rfl := hop .sto hsto
      exact exec_read_other (by simp [instrOf, storesOf, ea_decodeAddress]) hexec
    case str =>
      obtain rfl := hop .str hstr
      exact exec_read_other (by simp [instrOf, storesOf, pointer_decodeAddress]) hexec
    case stack =>
      have hstores : ∀ x ∈ storesOf (instrOf op (decodeAddress s.operand)) s, x.1 = s.sp := by
        rcases List.mem_pair.1 hstack with hpsh | hcll
        · simp [hop .psh hpsh, instrOf, storesOf]
        · simp [hop .cll hcll, instrOf, storesOf]
      exact exec_read_other hstores hexec

/-- Settles O52: LDR and STR emit by their pointer, every other instruction has its address in range. -/
theorem diagnosticsComeOnlyFromBadPointers : Obligations.DiagnosticsComeOnlyFromBadPointers := by
  intro s
  by_cases hpointer : s.halted = false ∧ (s.phase = .ldr0 ∨ s.phase = .str0)
  · obtain ⟨hr, hp⟩ := hpointer
    simp only [emitted_of_pointerPhase s hr hp, hr, hp, true_and]
  · rw [if_neg fun ⟨hr, hp, _⟩ => hpointer ⟨hr, hp⟩]
    rcases Bool.eq_false_or_eq_true s.halted with hh | hr
    · exact emitted_of_halted s hh
    · exact emitted_of_otherPhase s fun hp => hpointer ⟨hr, hp⟩

/-- Settles O53: `stepFault` phase by phase. -/
theorem stepFaultsExactlyOnUncheckedIndices : Obligations.StepFaultsExactlyOnUncheckedIndices := by
  intro s
  rw [step_eq_outcome]
  refine ⟨fun f => ?iff, ?total⟩
  case iff =>
    rw [outcome_eq_fault_iff, stepFault]
    rcases Bool.eq_false_or_eq_true s.halted with hh | hr
    · simp [hh]
    · rw [hr]
      cases hp : s.phase
      case fetch1 => simp [Phase.opcode, uncheckedFault_eq_some_iff]
      case psh0 | cll0 | pop0 | ret0 => simp [Phase.opcode, instrOf, stackFault, uncheckedFault_eq_some_iff]
      all_goals simp [Phase.opcode, instrOf, stackFault]
  case total =>
    cases hstop : stepFault s
    · exact .inl ⟨stepState s, rfl⟩
    · exact .inr ⟨_, rfl⟩

/-- Settles O54: `step_congr`, DIN, DOUT and the draws being as they were. -/
theorem carryAndOverflowAreNeverRead : Obligations.CarryAndOverflowAreNeverRead := by
  intro s v c
  obtain ⟨hnext, hfault⟩ := step_congr s v c s.din s.dout s.draws
  refine ⟨fun t ht => ?_, hfault⟩
  obtain ⟨v', c', din', dout', draws', hstep, -⟩ := hnext t ht
  exact ⟨v', c', din', dout', draws', hstep⟩

/-- Settles O55: `step_congr`, V and C being as they were, so that they agree after the step too. -/
theorem dataLatchesAreNeverRead : Obligations.DataLatchesAreNeverRead := by
  intro s din dout draws
  obtain ⟨hnext, hfault⟩ := step_congr s s.v s.c din dout draws
  refine ⟨fun t ht => ?_, hfault⟩
  obtain ⟨v', c', din', dout', draws', hstep, hv, hc⟩ := hnext t ht
  rw [hv rfl, hc rfl] at hstep
  exact ⟨din', dout', draws', hstep⟩

/-! ### Two instructions in a row -/

/-- Settles O56: STO leaves PC and FETCH_0, so the fetch that follows reads the word just stored there. -/
theorem storeIsSeenByTheNextFetch : Obligations.StoreIsSeenByTheNextFetch := by
  intro s hrunning hphase hpc haddr
  obtain ⟨t, hexec, ht, hread, -⟩ := stoStoresAtTheDirectAddress s (decodeAddress s.operand)
  have hstep : step s = .next t := (step_execPhase s .sto hrunning hphase).trans hexec
  have htpc : t.pc = s.pc := (congrArg State.pc ht :)
  have htruns : t.halted = false := (congrArg State.halted ht :).trans hrunning
  have hword : t.mem.read t.pc.toNat = s.acc := by rwa [ea_decodeAddress, haddr, ← htpc] at hread
  have hrun : run 4 s = .next (fetched t) := (run_succ 3 hstep).trans
    (run_of_fetch0 t htruns (congrArg State.phase ht) ((inRange_iff _).2 (htpc ▸ hpc)) 0)
  refine ⟨fetched t, hrun, hword, hword, congrArg (· + 1#16) htpc, ?phase, ?runs⟩
  case phase => rw [fetched_eq, hword]
  case runs => rw [step_fetched t htruns, hword]

/-- Settles O57: the pop's SP is the SP before the push, in range, where the pushed PC stands. -/
theorem retAfterCllComesBack : Obligations.RetAfterCllComesBack := by
  intro s addr hsp
  obtain ⟨t, hcall, ht, hpushed, -⟩ := (cllPushesPcAndJumps s addr).1 hsp
  have hback : t.sp + 1#16 = s.sp := (congrArg (·.sp + 1#16) ht).trans (BitVec.sub_add_cancel _ _)
  obtain ⟨u, hret, hu⟩ := (retPopsPc t).1 (hback ▸ hsp)
  refine ⟨t, u, hcall, congrArg State.pc ht, hret, ?_⟩
  rw [hback, hpushed] at hu
  exact hu.trans (by rw [ht])

end Sys2Proof
end
